-- ==== Sys2Proof/Word.lean ====
section
/-! DEFINITION. The word types of the BSQ core's ports and of its buffer (00_scope.md R9, R10; 30_encoding.md R60). -/

namespace Sys2Proof

/-- One byte of the buffer: 8 bits (R10, R21). -/
abbrev Byte := BitVec 8

/-- The operand port DATA, the result port RESULT and the read accumulator: 64 bits (R9, R60). -/
abbrev Word := BitVec 64

/-- The command word CMD: 32 bits (R60, R61). -/
abbrev CmdWord := BitVec 32

end Sys2Proof
end

