-- ==== Sys2Proof/Syntax.lean ====
section
/-! DEFINITION. The commands of BSQ-CMD version 1, one constructor for each row of spec/opcode_table.json (30_encoding.md R65).
A command carries the fields of its command word that it uses and the part of the operand port DATA that it reads (R64). -/

namespace Sys2Proof

/-- A command (R15, R65). Every field has exactly the width of its place in the encoding (R61, R64), so every term can be
encoded. A command that ignores DATA carries none of it (R64, log 11). -/
inductive Instr where
  /-- STAT: read the status word (R140). -/
  | stat
  /-- PNEW: create a new packer (R100). -/
  | pnew
  /-- PRST: move the packer cursor to the origin (R101). -/
  | prst
  /-- ADD: append an unsigned field of `nbits` bits, the low bits of DATA (R102). -/
  | add (nbits : BitVec 6) (data : Word)
  /-- ADDS: append a sign bit and `nbits` magnitude bits of the signed integer in DATA (R106). -/
  | adds (nbits : BitVec 6) (data : Word)
  /-- UINIT: create a new unpacker with the valid length in DATA (R120). -/
  | uinit (len : Word)
  /-- READ: read an unsigned field of `nbits` bits (R122). -/
  | read (nbits : BitVec 6)
  /-- READS: read a sign bit and `nbits` magnitude bits (R125). -/
  | reads (nbits : BitVec 6)
  /-- BRD: read the byte at `addr` (R150). -/
  | brd (addr : BitVec 22)
  /-- BWR: store `byte` = DATA[7:0] at `addr` (R152). -/
  | bwr (addr : BitVec 22) (byte : Byte)
  /-- WPOS: read the packer's bit position (R142). -/
  | wpos
  /-- PLEN: read the consumed length (R144). -/
  | plen
  /-- RPOS: read the unpacker's bit position (R146). -/
  | rpos
  /-- ULENR: read the unpacker's valid length (R148). -/
  | ulenr
deriving DecidableEq, Repr

end Sys2Proof
end

