-- ==== Sys2Proof/Decode.lean ====
section
/-! DEFINITION. Decoding a command word and its operand (30_encoding.md R61 to R69) and encoding a command (R61, R65, R70). -/

namespace Sys2Proof

/-- Why a command word is illegal: each reason raises BAD_CMD (R66, R67, R170). -/
inductive BadCmd where
  /-- OP is 0xE or 0xF (R67). -/
  | reservedOp
  /-- NBITS is not zero and the opcode does not use it (R66). -/
  | nonzeroNbits
  /-- ADDR is not zero and the opcode does not use it (R66). -/
  | nonzeroAddr
deriving DecidableEq, Repr

/-- What the decoder answers: a command, or the reason the word is BAD_CMD (R68). -/
inductive Decoded where
  | command (i : Instr)
  | badCmd (why : BadCmd)
deriving DecidableEq, Repr

/-- OP = CMD[3:0] (R61). -/
def opField (cmd : CmdWord) : BitVec 4 := cmd.extractLsb' 0 4

/-- NBITS = CMD[9:4] (R61, R63). -/
def nbitsField (cmd : CmdWord) : BitVec 6 := cmd.extractLsb' 4 6

/-- ADDR = CMD[31:10] (R61, R62). -/
def addrField (cmd : CmdWord) : BitVec 22 := cmd.extractLsb' 10 22

/-- A command that uses neither NBITS nor ADDR: both must be zero (R66, R68). -/
def decodePlain (nbits : BitVec 6) (addr : BitVec 22) (i : Instr) : Decoded :=
  if nbits ≠ 0 then .badCmd .nonzeroNbits else if addr ≠ 0 then .badCmd .nonzeroAddr else .command i

/-- A bit command: ADDR must be zero (R66, R68). NBITS above 57 is checked when the command executes (R63). -/
def decodeBits (addr : BitVec 22) (i : Instr) : Decoded :=
  if addr ≠ 0 then .badCmd .nonzeroAddr else .command i

/-- A byte-access command: NBITS must be zero (R66, R68). ADDR >= N is checked when the command executes (R62). -/
def decodeByte (nbits : BitVec 6) (i : Instr) : Decoded :=
  if nbits ≠ 0 then .badCmd .nonzeroNbits else .command i

/-- The decode of R68, total on every command word; `data` is the operand port, read as R64 says. -/
def decode (cmd : CmdWord) (data : Word) : Decoded :=
  match (opField cmd).toNat with
  | 0 => decodePlain (nbitsField cmd) (addrField cmd) .stat
  | 1 => decodePlain (nbitsField cmd) (addrField cmd) .pnew
  | 2 => decodePlain (nbitsField cmd) (addrField cmd) .prst
  | 3 => decodeBits (addrField cmd) (.add (nbitsField cmd) data)
  | 4 => decodeBits (addrField cmd) (.adds (nbitsField cmd) data)
  | 5 => decodePlain (nbitsField cmd) (addrField cmd) (.uinit data)
  | 6 => decodeBits (addrField cmd) (.read (nbitsField cmd))
  | 7 => decodeBits (addrField cmd) (.reads (nbitsField cmd))
  | 8 => decodeByte (nbitsField cmd) (.brd (addrField cmd))
  | 9 => decodeByte (nbitsField cmd) (.bwr (addrField cmd) (data.setWidth 8))
  | 10 => decodePlain (nbitsField cmd) (addrField cmd) .wpos
  | 11 => decodePlain (nbitsField cmd) (addrField cmd) .plen
  | 12 => decodePlain (nbitsField cmd) (addrField cmd) .rpos
  | 13 => decodePlain (nbitsField cmd) (addrField cmd) .ulenr
  | _ => .badCmd .reservedOp

/-- A command word put together from its three fields: `AAAAAAAAAAAAAAAAAAAAAAnnnnnnoooo` (R61). -/
def commandWord (op : BitVec 4) (nbits : BitVec 6) (addr : BitVec 22) : CmdWord :=
  addr ++ nbits ++ op

/-- The command word and the operand of a command, unused fields and unused DATA zero (R65, R66, R70). -/
def encode : Instr → CmdWord × Word
  | .stat => (commandWord 0x0 0 0, 0)
  | .pnew => (commandWord 0x1 0 0, 0)
  | .prst => (commandWord 0x2 0 0, 0)
  | .add n v => (commandWord 0x3 n 0, v)
  | .adds n v => (commandWord 0x4 n 0, v)
  | .uinit l => (commandWord 0x5 0 0, l)
  | .read n => (commandWord 0x6 n 0, 0)
  | .reads n => (commandWord 0x7 n 0, 0)
  | .brd a => (commandWord 0x8 0 a, 0)
  | .bwr a b => (commandWord 0x9 0 a, b.setWidth 64)
  | .wpos => (commandWord 0xA 0 0, 0)
  | .plen => (commandWord 0xB 0 0, 0)
  | .rpos => (commandWord 0xC 0 0, 0)
  | .ulenr => (commandWord 0xD 0 0, 0)

/-- A row of the opcode map: a word matches it when its bits under `mask` are `bits` (R66). -/
structure OpcodeRow where
  mask : CmdWord
  bits : CmdWord
deriving DecidableEq, Repr

/-- The fourteen masks and matches of R66, in the order of R65. -/
def opcodeTable : List OpcodeRow :=
  [⟨0xFFFFFFFF, 0x0⟩, ⟨0xFFFFFFFF, 0x1⟩, ⟨0xFFFFFFFF, 0x2⟩, ⟨0xFFFFFC0F, 0x3⟩, ⟨0xFFFFFC0F, 0x4⟩,
   ⟨0xFFFFFFFF, 0x5⟩, ⟨0xFFFFFC0F, 0x6⟩, ⟨0xFFFFFC0F, 0x7⟩, ⟨0x000003FF, 0x8⟩, ⟨0x000003FF, 0x9⟩,
   ⟨0xFFFFFFFF, 0xA⟩, ⟨0xFFFFFFFF, 0xB⟩, ⟨0xFFFFFFFF, 0xC⟩, ⟨0xFFFFFFFF, 0xD⟩]

/-- The command word of a command given as one number, bit 0 the least significant bit of CMD; DATA, if the number is that
long, follows CMD at bits 95..32 (R60, R69). -/
def tableCmd (nbits w : Nat) : CmdWord := BitVec.ofNat 32 (w % 2 ^ nbits)

/-- The operand of a command given as one number (see `tableCmd`): zero for the table's 32-bit rows. -/
def tableData (nbits w : Nat) : Word := BitVec.ofNat 64 (w % 2 ^ nbits / 2 ^ 32)

/-- The command the decoder reads from an instruction whose bits are `w`; `none` where it is BAD_CMD. -/
def decodeTableWord (nbits w : Nat) : Option Instr :=
  match decode (tableCmd nbits w) (tableData nbits w) with
  | .command i => some i
  | .badCmd _ => none

end Sys2Proof
end

