-- ==== Sys2Proof/Config.lean ====
section
/-! DEFINITION. What is fixed when a block is built (00_scope.md R7, R8). The spec leaves one point open, CAPACITY. -/

namespace Sys2Proof

/-- CAPACITY, the size N of the buffer in bytes: 1 <= N <= 2^22 (R7, I14). It is fixed when the block is built. -/
structure Capacity where
  bytes : Nat
  one_le : 1 ≤ bytes
  le_max : bytes ≤ 4194304
deriving DecidableEq, Repr

/-- DESIGN CHOICE (log 1): the capacity of the one block `Sys2Proof.core` stands for, the source's worked example (R7).
Only `State.reset` uses it; a state carries its own capacity, and the step reads that one. -/
def Config.capacity : Capacity := ⟨20, by decide, by decide⟩

/-- MAX_WIDTH, the largest NBITS a bit command accepts (R8). -/
def Config.maxWidth : Nat := 57

end Sys2Proof
end

