-- ==== Sys2Proof/Machine/State.lean ====
section
/-! DEFINITION. The state of the BSQ core (10_state.md R20 to R35) as plain data, the ways a step can stop, and reset (R31, R190). -/

namespace Sys2Proof.Machine

/-- A bit cursor: the byte that holds the next bit and that bit's place in it, 0 the least significant (R22, R23, R80). The
byte index is a 23-bit register and the bit offset a 3-bit register (R20). -/
structure Cursor where
  byte : BitVec 23
  bit : BitVec 3
deriving DecidableEq, Repr

/-- The cursor at bit 0 of byte 0. -/
def Cursor.origin : Cursor := ⟨0, 0⟩

/-- The fault causes of R170. The register is 4 bits wide; its code is `Cause.code`. Codes 7 to 15 are never produced (I15), so
CAUSE holds one of these seven (log 8). -/
inductive Cause where
  /-- No fault: the value of CAUSE while FAULT = 0. -/
  | none
  /-- ADD or ADDS would touch a byte at index N or above. -/
  | wrOverflow
  /-- READ or READS would touch a byte at index N or above. -/
  | rdOverflow
  /-- NBITS above 57 in a bit command. -/
  | badWidth
  /-- A reserved opcode or a non-zero unused field. -/
  | badCmd
  /-- BRD or BWR at an address N or above. -/
  | badAddr
  /-- UINIT with a length above N. -/
  | badLen
deriving DecidableEq, Repr

/-- The response codes (R60). The value 3 is never produced (I18). -/
inductive Resp where
  /-- 0: the command executed. -/
  | ok
  /-- 1: the command raised a fault and did nothing else. -/
  | faulted
  /-- 2: the block was already faulted and the command did nothing. -/
  | rejected
deriving DecidableEq, Repr

/-- What the block answers on the response port: RESP and RESULT (R60). -/
structure Answer where
  resp : Resp
  result : Word
deriving DecidableEq, Repr

/-- What the host does to the block next (log 2). -/
inductive HostAction where
  /-- The host asserts `rst` and releases it, between two commands (R190, R201). -/
  | reset
  /-- The host issues a command: CMD and DATA on the command port (R60). -/
  | command (cmd : CmdWord) (data : Word)
deriving DecidableEq, Repr

/-- The buffer's contents as (address, byte) pairs; `Memory.wf` is its one canonical form (log 9). -/
abbrev Memory := List Host.Cell

/-- What an address that is not listed reads as: the buffer's contents at reset (R31). -/
def Memory.unlisted : Byte := 0x00

/-- The canonical form: addresses strictly rising, and no entry equal to what an unlisted address reads as. -/
abbrev Memory.wf (m : Memory) : Prop :=
  m.Pairwise (fun c d => c.1 < d.1) ∧ ∀ c ∈ m, c.2 ≠ Memory.unlisted

/-- The state of the block (R20), with its capacity N (R7) and, as the model's own fields, the two ports (logs 2, 3). -/
structure State where
  /-- N, fixed when the block is built (R7, R21). No step changes it. -/
  capacity : Capacity
  /-- `BUF[0..N-1]` (R21). -/
  buf : Memory
  /-- W, the packer cursor (R22). -/
  w : Cursor
  /-- U, the unpacker cursor (R23). -/
  u : Cursor
  /-- ULEN, the unpacker's valid length (R24). -/
  ulen : BitVec 23
  /-- FAULT (R25). -/
  fault : Bool
  /-- CAUSE (R25). -/
  cause : Cause
  /-- The model's own field: the answer to the last command, if one was answered since reset (log 3). -/
  answer : Option Answer
  /-- The model's own field: the host's next actions, the first one first (log 2). -/
  pending : List HostAction
deriving DecidableEq, Repr

/-- The reset state of a block with capacity `n` (R31): every element zero. The host has nothing pending (log 2). -/
def State.resetOf (n : Capacity) : State where
  capacity := n
  buf := []
  w := Cursor.origin
  u := Cursor.origin
  ulen := 0
  fault := false
  cause := .none
  answer := none
  pending := []

/-- The machine right after reset (R31, R190), for the capacity of log 1. -/
def State.reset : State := State.resetOf Config.capacity

/-- Why a step can stop with a fault. The block's own faults (R170) are no stop: they are next states (R171). -/
inductive Fault where
  /-- MemRead or MemWrite at an index N or above, where there is no byte (R21). Raised by `memRead` and `memWrite` alone. No
  command reaches it, because every command checks its extent first (R171). Safe: the model stops (log 10). -/
  | noSuchByte
deriving DecidableEq, Repr

/-- Why a step can have no meaning. -/
inductive Refusal where
  /-- An instruction without a meaning yet, by its mnemonic. Raised by `exec` alone; no arm raises it now. Safe: the model stops. -/
  | notModelled (mnemonic : String)
deriving DecidableEq, Repr

end Sys2Proof.Machine
end

