-- ==== Sys2Proof/Machine/Ops.lean ====
section
/-! DEFINITION. The named operations over the buffer, the cursors and the ports: MemRead and MemWrite (00_scope.md R12), the
shared bit-cursor arithmetic (40_cursor.md R80 to R92), raising a fault and its return (60_exceptions.md R171, R174, R177), reset
(70_reset_and_hazards.md R190) and taking the host's next action (30_encoding.md R60). -/

namespace Sys2Proof.Machine

/-! ## Updates of one field -/

def State.setBuf (s : State) (m : Memory) : State := { s with buf := m }
def State.setW (s : State) (c : Cursor) : State := { s with w := c }
def State.setU (s : State) (c : Cursor) : State := { s with u := c }
def State.setUlen (s : State) (n : BitVec 23) : State := { s with ulen := n }
def State.setPending (s : State) (as : List HostAction) : State := { s with pending := as }

/-- `respond(code, result)`: the command's answer on the response port (R12). -/
def State.respond (s : State) (r : Resp) (x : Word) : State := { s with answer := some ⟨r, x⟩ }

/-- FAULT <- 1 and CAUSE <- the cause (R171). -/
def State.setFault (s : State) (c : Cause) : State := { s with fault := true, cause := c }

/-! ## Memory: one byte at a time (R12, R40) -/

/-- The byte listed at an address, or what an unlisted address reads as. -/
def Memory.read : Memory → Nat → Byte
  | [], _ => Memory.unlisted
  | c :: m, a => if c.1 = a then c.2 else Memory.read m a

/-- Puts an entry before the first entry with a higher address. -/
def Memory.insert (a : Nat) (b : Byte) : Memory → Memory
  | [] => [(a, b)]
  | c :: m => if a < c.1 then (a, b) :: c :: m else c :: Memory.insert a b m

/-- Stores a byte and keeps the canonical form: the value an unlisted address reads as is not listed. -/
def Memory.write (m : Memory) (a : Nat) (b : Byte) : Memory :=
  if b = Memory.unlisted then m.filter (fun c => c.1 != a)
  else Memory.insert a b (m.filter (fun c => c.1 != a))

/-- `MemRead(j, 1)`: the byte `BUF[j]` (R12). There is no byte at index N or above (R21). -/
def memRead (s : State) (j : Nat) : Except Fault Byte :=
  if j < s.capacity.bytes then .ok (s.buf.read j) else .error .noSuchByte

/-- `MemWrite(j, 1, b)`: `BUF[j] <- b` (R12). There is no byte at index N or above (R21). -/
def memWrite (s : State) (j : Nat) (b : Byte) : Except Fault State :=
  if j < s.capacity.bytes then .ok (s.setBuf (s.buf.write j b)) else .error .noSuchByte

/-- PNEW's loop (R100): `count` bytes from index `j` upward become 0x00. -/
def clearFrom : Nat → Nat → State → Except Fault State
  | 0, _, s => .ok s
  | count + 1, j, s =>
    match memWrite s j 0x00 with
    | .error f => .error f
    | .ok s' => clearFrom count (j + 1) s'

/-- The bit at bit position q: bit q mod 8 of byte q div 8 (R41). -/
def State.bitAt (s : State) (q : Nat) : Bool := (s.buf.read (q / 8)).getLsbD (q % 8)

/-! ## Cursor arithmetic -/

/-- `pos`: the linear bit position of a cursor (R81). -/
def Cursor.pos (c : Cursor) : Nat := 8 * c.byte.toNat + c.bit.toNat

/-- `dec`: the cursor at a bit position (R81). -/
def Cursor.dec (p : Nat) : Cursor := ⟨BitVec.ofNat 23 (p / 8), BitVec.ofNat 3 (p % 8)⟩

/-- `adv`: a cursor moved over k bits (R82). -/
def Cursor.adv (c : Cursor) (k : Nat) : Cursor := Cursor.dec (c.pos + k)

/-- The chunk loops' cursor step: `bit` grows by `shiftBy`; at 8 it returns to 0 and `byte` grows by one (R89, R90). -/
def Cursor.bump (c : Cursor) (shiftBy : Nat) : Cursor :=
  if c.bit.toNat + shiftBy = 8 then ⟨c.byte + 1, 0⟩ else ⟨c.byte, BitVec.ofNat 3 (c.bit.toNat + shiftBy)⟩

/-- `InBounds(P, n)`: n bits at bit position P touch no byte at index N or above (R44, R86). -/
abbrev State.inBounds (s : State) (p n : Nat) : Prop := n = 0 ∨ p + n ≤ 8 * s.capacity.bytes

/-- `MASK(k)`: the word with the low k bits set (R14, R88). -/
def mask (k : Nat) : Word := BitVec.ofNat 64 (2 ^ k - 1)

/-- One chunk of an operation: the byte it falls in, the offset it starts at there, and its length (R84). -/
structure Chunk where
  byte : Nat
  offset : Nat
  len : Nat
deriving DecidableEq, Repr

/-- The chunk split of an operation of `n` bits at bit position `p` (R84); `fuel` bounds the number of chunks. -/
def chunksFrom : Nat → Nat → Nat → List Chunk
  | 0, _, _ => []
  | fuel + 1, p, n =>
    if n = 0 then []
    else ⟨p / 8, p % 8, min n (8 - p % 8)⟩ ::
      chunksFrom fuel (p + min n (8 - p % 8)) (n - min n (8 - p % 8))

/-- The chunks of an operation of `n` bits at bit position `p` (R84); each has at least one bit, so n of them suffice. -/
def chunks (p n : Nat) : List Chunk := chunksFrom n p n

/-! ## The two primitives -/

/-- The loop of WriteBits (R89): `val` holds the bits still to write, `rem` how many they are. Every turn writes at least one
bit, so `fuel` = n turns suffice for n bits. -/
def writeChunks : Nat → Word → Nat → State → Except Fault State
  | 0, _, _, s => .ok s
  | fuel + 1, val, rem, s =>
    if rem = 0 then .ok s
    else
      let shiftBy := min rem (8 - s.w.bit.toNat)
      let chunk := val &&& mask shiftBy
      match memRead s s.w.byte.toNat with
      | .error f => .error f
      | .ok old =>
        match memWrite s s.w.byte.toNat (old ||| (chunk <<< s.w.bit.toNat).setWidth 8) with
        | .error f => .error f
        | .ok s' => writeChunks fuel (val >>> shiftBy) (rem - shiftBy) (s'.setW (s'.w.bump shiftBy))

/-- `WriteBits(v, n)`: the low n bits of v at the packer cursor (R89). -/
def writeBits (v : Word) (n : Nat) (s : State) : Except Fault State := writeChunks n v n s

/-- The loop of ReadBits (R90): `acc` is the accumulator, `shift` the place of the next chunk in it, `rem` the bits still to
read. -/
def readChunks : Nat → Word → Nat → Nat → State → Except Fault (Word × State)
  | 0, acc, _, _, s => .ok (acc, s)
  | fuel + 1, acc, shift, rem, s =>
    if rem = 0 then .ok (acc, s)
    else
      let shiftBy := min rem (8 - s.u.bit.toNat)
      match memRead s s.u.byte.toNat with
      | .error f => .error f
      | .ok old =>
        let chunk := (old.setWidth 64 >>> s.u.bit.toNat) &&& mask shiftBy
        readChunks fuel (acc ||| (chunk <<< shift)) (shift + shiftBy) (rem - shiftBy)
          (s.setU (s.u.bump shiftBy))

/-- `ReadBits(n)`: n bits at the unpacker cursor, as a 64-bit word (R90). -/
def readBits (n : Nat) (s : State) : Except Fault (Word × State) := readChunks n 0 0 n s

/-! ## The same two operations, one chunk after the other (R84) -/

/-- The writes of an operation cut into chunks: for each chunk one read and one write of its byte, with the low bits of `v` that
fall in it OR-ed in at its offset; the rest of `v` goes to the chunks after it (R84). No cursor moves. -/
def writeAlong : List Chunk → Word → State → Except Fault State
  | [], _, s => .ok s
  | c :: cs, v, s =>
    match memRead s c.byte with
    | .error f => .error f
    | .ok old =>
      match memWrite s c.byte (old ||| ((v &&& mask c.len) <<< c.offset).setWidth 8) with
      | .error f => .error f
      | .ok s' => writeAlong cs (v >>> c.len) s'

/-- The reads of an operation cut into chunks: for each chunk one read of its byte, whose bits in the chunk come below those of
the chunks after it (R84). -/
def readAlong : List Chunk → State → Except Fault Word
  | [], _ => .ok 0
  | c :: cs, s =>
    match memRead s c.byte with
    | .error f => .error f
    | .ok old => (readAlong cs s).map fun (r : Word) => ((BitVec.setWidth 64 old >>> c.offset) &&& mask c.len) ||| (r <<< c.len)

/-! ## Outcomes of a command -/

/-- A command's outcome: the next state, or a stop. -/
abbrev Result := Host.Outcome State Fault Refusal

/-- `raise F`: FAULT <- 1, CAUSE <- code(F), respond(FAULTED, 0), and nothing else (R171). Taking a fault is a next state. The
block records nothing more of it (R170): no return address, vector or mode (R176). -/
def raise (c : Cause) (s : State) : Result := .next ((s.setFault c).respond .faulted 0)

/-- `respond(OK, x)` after a command's effect. -/
def complete : Except Fault (Word × State) → Result
  | .error f => .fault f
  | .ok (x, s) => .next (s.respond .ok x)

/-- The fault gate for a command that is no query (R174): while FAULT = 1 it is REJECTED and changes no state. -/
def gated (s : State) (run : Result) : Result :=
  if s.fault then .next (s.respond .rejected 0) else run

/-- A query command's outcome: it changes no state and runs whether or not FAULT = 1 (R174). -/
def query (s : State) (x : Word) : Result := .next (s.respond .ok x)

/-- The outcome of a command word that does not decode (R174): REJECTED while FAULT = 1, else BAD_CMD. -/
def badCommand (s : State) : Result := gated s (raise .badCmd s)

/-- The checks of a bit command, in the order of R175, before its effect: NBITS at most 57, then the whole extent of `total`
bits at bit position `p` (R102, R106, R122, R125). -/
def bitCommand (overflow : Cause) (p nbits total : Nat) (s : State) (effect : Except Fault (Word × State)) : Result :=
  if Config.maxWidth < nbits then raise .badWidth s
  else if s.inBounds p total then complete effect
  else raise overflow s

/-! ## Reset and the host's actions -/

/-- `rst`: every element of the state to its reset value; N and what the host does next stay (R190). It is the only return from
a fault (R177). -/
def hardReset (s : State) : State := (State.resetOf s.capacity).setPending s.pending

/-- The host's next action, and the state in which the ports have moved on past it (R60, R195). -/
def takeAction (s : State) : Option (HostAction × State) :=
  match s.pending with
  | [] => none
  | a :: as => some (a, s.setPending as)

/-- The state in which the host issues the command `cmd`, `data` before its other actions. -/
def present (cmd : CmdWord) (data : Word) (s : State) : State := s.setPending (.command cmd data :: s.pending)

end Sys2Proof.Machine
end

