-- ==== Sys2Proof/Machine/Flags.lean ====
section
/-! DEFINITION. The flags, the codes and the status word (10_state.md R25, R28, R29; 30_encoding.md R60; 60_exceptions.md R170). -/

namespace Sys2Proof.Machine

/-- The 4-bit CAUSE code (R170). -/
def Cause.code : Cause → BitVec 4
  | .none => 0
  | .wrOverflow => 1
  | .rdOverflow => 2
  | .badWidth => 3
  | .badCmd => 4
  | .badAddr => 5
  | .badLen => 6

/-- The 2-bit RESP code (R60). -/
def Resp.code : Resp → BitVec 2
  | .ok => 0
  | .faulted => 1
  | .rejected => 2

/-- MORE, computed when read: 1 if U.byte < ULEN (R28). -/
def State.more (s : State) : Bool := decide (s.u.byte.toNat < s.ulen.toNat)

/-- STATUS: `{CAUSE[3:0], 0b00, MORE, FAULT}`, zero-extended to 64 bits (R29, R140). -/
def State.status (s : State) : Word :=
  (s.cause.code ++ (0#2) ++ BitVec.ofBool s.more ++ BitVec.ofBool s.fault).setWidth 64

/-- The level output `fault_o` = FAULT (R60, R179). -/
def State.faultO (s : State) : Bool := s.fault

/-- The consumed length: W.byte, rounded up if W.bit is not 0 (R144). -/
def State.consumedLength (s : State) : Nat := s.w.byte.toNat + (if s.w.bit ≠ 0 then 1 else 0)

end Sys2Proof.Machine
end

