-- ==== Sys2Proof/Machine/Operands.lean ====
section
/-! DEFINITION. How a command reads its operands and forms its result: NBITS and ADDR (30_encoding.md R62, R63), the DATA port
(R64), sign and magnitude (40_cursor.md R93, R94) and the 64-bit port representation of integers (00_scope.md R13). -/

namespace Sys2Proof.Machine

/-- NBITS as a count, zero-extended and not scaled (R63). -/
def width (nbits : BitVec 6) : Nat := nbits.toNat

/-- ADDR as a byte index, zero-extended, with no scaling and no base (R62). -/
def byteAddr (addr : BitVec 22) : Nat := addr.toNat

/-- `signed(w)`: a port word read as two's complement (R13, log 12). -/
def signedOf (d : Word) : Int := if d.getLsbD 63 then (d.toNat : Int) - 2 ^ 64 else d.toNat

/-- `x mod 2^64`: an integer on a 64-bit port (R13, log 12). -/
def portWord (x : Int) : Word := BitVec.ofInt 64 x

/-- The sign bit written for the integer x: 1 if x < 0, else 0 (R93). -/
def signBit (x : Int) : Word := if x < 0 then 1 else 0

/-- The magnitude |x| as a 64-bit word (R93, R106, R108): exact, since |x| <= 2^63. -/
def magnitude (x : Int) : Word := BitVec.ofNat 64 x.natAbs

/-- The integer of a sign bit and a magnitude; sign 1 with magnitude 0 is 0 (R94). -/
def signMagnitude (sign mag : Word) : Int := if sign = 1 then -(mag.toNat : Int) else mag.toNat

/-- A byte on the result port, zero-extended (R150). -/
def zextByte (b : Byte) : Word := b.setWidth 64

/-- A position or a length on the result port, zero-extended (R30). -/
def zextNat (n : Nat) : Word := BitVec.ofNat 64 n

end Sys2Proof.Machine
end

