-- ==== Sys2Proof/Machine/HostAccess.lean ====
section
/-! DEFINITION. The status, position and byte-access commands (43_host_access.md). STAT, WPOS, PLEN, RPOS and ULENR are the query
commands: no gate (60_exceptions.md R174). -/

namespace Sys2Proof.Machine

/-- STAT (R140): the status word. -/
def execStat (s : State) : Result := query s s.status

/-- WPOS (R142): `8*W.byte + W.bit`. -/
def execWpos (s : State) : Result := query s (zextNat s.w.pos)

/-- PLEN (R144): the consumed length. -/
def execPlen (s : State) : Result := query s (zextNat s.consumedLength)

/-- RPOS (R146): `8*U.byte + U.bit`. -/
def execRpos (s : State) : Result := query s (zextNat s.u.pos)

/-- ULENR (R148): ULEN. -/
def execUlenr (s : State) : Result := query s (zextNat s.ulen.toNat)

/-- BRD (R150): the byte at ADDR, which must be below N. -/
def execBrd (addr : BitVec 22) (s : State) : Result :=
  gated s (if s.capacity.bytes ≤ byteAddr addr then raise .badAddr s
    else complete ((memRead s (byteAddr addr)).map fun b => (zextByte b, s)))

/-- BWR (R152): replaces the byte at ADDR, which must be below N, by DATA[7:0]. -/
def execBwr (addr : BitVec 22) (byte : Byte) (s : State) : Result :=
  gated s (if s.capacity.bytes ≤ byteAddr addr then raise .badAddr s
    else complete ((memWrite s (byteAddr addr) byte).map fun s' => (0, s')))

end Sys2Proof.Machine
end

