-- ==== Sys2Proof/Machine/Packer.lean ====
section
/-! DEFINITION. The packer commands PNEW, PRST, ADD and ADDS (41_packer.md). -/

namespace Sys2Proof.Machine

/-- PNEW (R100): every byte of BUF to 0x00 and W to the origin. -/
def execPnew (s : State) : Result :=
  gated s (complete ((clearFrom s.capacity.bytes 0 s).map fun s' => (0, s'.setW Cursor.origin)))

/-- PRST (R101): W to the origin; BUF is not touched. -/
def execPrst (s : State) : Result :=
  gated s (complete (.ok (0, s.setW Cursor.origin)))

/-- ADD (R102): the low NBITS bits of DATA at the packer cursor. -/
def execAdd (nbits : BitVec 6) (data : Word) (s : State) : Result :=
  gated s (bitCommand .wrOverflow s.w.pos (width nbits) (width nbits) s
    ((writeBits data (width nbits) s).map fun s' => (0, s')))

/-- ADDS's effect (R106): the sign bit, a 1-bit write, then the low w bits of the magnitude. -/
def writeSigned (x : Int) (w : Nat) (s : State) : Except Fault State :=
  (writeBits (signBit x) 1 s).bind fun s₁ => writeBits (magnitude x) w s₁

/-- ADDS (R106): sign and magnitude of signed(DATA) at the packer cursor, NBITS + 1 bits, checked together first. -/
def execAdds (nbits : BitVec 6) (data : Word) (s : State) : Result :=
  gated s (bitCommand .wrOverflow s.w.pos (width nbits) (width nbits + 1) s
    ((writeSigned (signedOf data) (width nbits) s).map fun s' => (0, s')))

end Sys2Proof.Machine
end

