-- ==== Sys2Proof/Machine/Unpacker.lean ====
section
/-! DEFINITION. The unpacker commands UINIT, READ and READS (42_unpacker.md). -/

namespace Sys2Proof.Machine

/-- UINIT (R120): a new unpacker, U at the origin and ULEN = DATA, all 64 bits of which are compared with N. -/
def execUinit (len : Word) (s : State) : Result :=
  gated s (if s.capacity.bytes < len.toNat then raise .badLen s
    else complete (.ok (0, (s.setU Cursor.origin).setUlen (BitVec.ofNat 23 len.toNat))))

/-- READ (R122): NBITS bits at the unpacker cursor, zero-extended. -/
def execRead (nbits : BitVec 6) (s : State) : Result :=
  gated s (bitCommand .rdOverflow s.u.pos (width nbits) (width nbits) s (readBits (width nbits) s))

/-- READS's effect (R125): the sign bit, then w magnitude bits, as an integer on the result port (R127). -/
def readSigned (w : Nat) (s : State) : Except Fault (Word × State) :=
  (readBits 1 s).bind fun r₁ => (readBits w r₁.2).map fun r₂ => (portWord (signMagnitude r₁.1 r₂.1), r₂.2)

/-- READS (R125): a sign-and-magnitude field of NBITS + 1 bits, checked together first. -/
def execReads (nbits : BitVec 6) (s : State) : Result :=
  gated s (bitCommand .rdOverflow s.u.pos (width nbits) (width nbits + 1) s (readSigned (width nbits) s))

end Sys2Proof.Machine
end

