-- ==== Sys2Proof/Machine/Dispatch.lean ====
section
/-! DEFINITION. One arm for each command: what the block does with it, the fault gate included (60_exceptions.md R174). -/

namespace Sys2Proof.Machine

def exec (i : Instr) (s : State) : Host.Outcome State Fault Refusal :=
  match i with
  | .stat => Sys2Proof.Machine.execStat s
  | .pnew => Sys2Proof.Machine.execPnew s
  | .prst => Sys2Proof.Machine.execPrst s
  | .add nbits data => Sys2Proof.Machine.execAdd nbits data s
  | .adds nbits data => Sys2Proof.Machine.execAdds nbits data s
  | .uinit len => Sys2Proof.Machine.execUinit len s
  | .read nbits => Sys2Proof.Machine.execRead nbits s
  | .reads nbits => Sys2Proof.Machine.execReads nbits s
  | .brd addr => Sys2Proof.Machine.execBrd addr s
  | .bwr addr byte => Sys2Proof.Machine.execBwr addr byte s
  | .wpos => Sys2Proof.Machine.execWpos s
  | .plen => Sys2Proof.Machine.execPlen s
  | .rpos => Sys2Proof.Machine.execRpos s
  | .ulenr => Sys2Proof.Machine.execUlenr s

end Sys2Proof.Machine
end

