-- ==== Sys2Proof/Machine/Port.lean ====
section
/-! DEFINITION. The command port (30_encoding.md R60): what the block does with one action of the host (60_exceptions.md R174;
70_reset_and_hazards.md R190). -/

namespace Sys2Proof.Machine

/-- One command of the host: decode it (R68), then run it or answer BAD_CMD, each behind the fault gate (R174). -/
def serveCommand (cmd : CmdWord) (data : Word) (s : State) : Result :=
  match decode cmd data with
  | .badCmd _ => badCommand s
  | .command i => exec i s

/-- One action of the host: a reset or a command. -/
def serve (a : HostAction) (s : State) : Result :=
  match a with
  | .reset => .next (hardReset s)
  | .command cmd data => serveCommand cmd data s

end Sys2Proof.Machine
end

