-- ==== Sys2Proof/Machine/Step.lean ====
section
/-! DEFINITION. One step of the block: one action of the host, served as a whole (20_memory.md R49; 70_reset_and_hazards.md R195). -/

namespace Sys2Proof.Machine

/-- One transaction. With nothing pending no command is issued and nothing changes (log 2). -/
def step (s : State) : Host.Outcome State Fault Refusal :=
  match takeAction s with
  | none => .next s
  | some (a, s') => serve a s'

/-- The state in which the host's next action is the command whose bits are `w` (log 2). -/
def State.withFetchWord (s : State) (nbits w : Nat) : State :=
  present (tableCmd nbits w) (tableData nbits w) s

end Sys2Proof.Machine
end

