-- ==== Sys2Proof/WellFormed.lean ====
section
/-! DEFINITION. The terms the host writes and their checks: field descriptors (00_scope.md R15; 45_host_sequencing.md R165) and
assembler lines (30_encoding.md R70, R71). A term of `Instr` needs no check: its field types are as wide as the encoding's fields,
so an ill-formed command cannot be written. -/

namespace Sys2Proof

/-- A field descriptor: a bit width and a signedness, held by the host (R15, R20). -/
structure Descriptor where
  width : Nat
  signed : Bool
deriving DecidableEq, Repr

/-- A descriptor's width is a positive integer at most 57 (R8, R15, R71). -/
def Descriptor.wf (d : Descriptor) : Bool :=
  decide (1 ≤ d.width) && decide (d.width ≤ Config.maxWidth)

/-- The descriptor lists DecodeAll accepts: not empty, every width in 1..57 (R161, R165). -/
def Descriptor.listWf (ds : List Descriptor) : Bool :=
  !ds.isEmpty && ds.all Descriptor.wf

/-- How many bits one field occupies: its width and, if signed, its sign bit (R160). -/
def Descriptor.bits (d : Descriptor) : Nat :=
  d.width + (if d.signed then 1 else 0)

/-- `B(D)`: how many bits one record occupies (R160). -/
def Descriptor.recordBits (ds : List Descriptor) : Nat :=
  (ds.map Descriptor.bits).sum

/-- An assembler line: a command's line (R70) or a pseudo-instruction's (R71), its numbers as written. -/
inductive AsmLine where
  | stat
  | pnew
  | prst
  | wpos
  | plen
  | rpos
  | ulenr
  | add (nbits value : Int)
  | adds (nbits value : Int)
  | uinit (len : Int)
  | read (nbits : Int)
  | reads (nbits : Int)
  | brd (addr : Int)
  | bwr (addr byte : Int)
  | put (d : Descriptor) (value : Int)
  | get (d : Descriptor)
  | skip (n : Int)
  | nop
  | bzero (addr : Int)
deriving DecidableEq, Repr

/-- NBITS as the assembler accepts it: 0..63 (R70). -/
def AsmLine.nbitsOk (n : Int) : Bool := decide (0 ≤ n) && decide (n ≤ 63)

/-- ADDR as the assembler accepts it: 0..2^22 - 1 (R70). -/
def AsmLine.addrOk (a : Int) : Bool := decide (0 ≤ a) && decide (a < 4194304)

/-- A signed operand: -2^63 .. 2^63 - 1 (R70). -/
def AsmLine.signedOk (v : Int) : Bool :=
  decide (-9223372036854775808 ≤ v) && decide (v < 9223372036854775808)

/-- A length that the 64-bit operand port can hold; DESIGN CHOICE (log 13): R70 says only `DATA = len`. -/
def AsmLine.lenOk (v : Int) : Bool := decide (0 ≤ v) && decide (v < 18446744073709551616)

/-- The lines an assembler accepts (R70, and for the pseudo-instructions R71). -/
def AsmLine.wf : AsmLine → Bool
  | .stat => true
  | .pnew => true
  | .prst => true
  | .wpos => true
  | .plen => true
  | .rpos => true
  | .ulenr => true
  | .add n _ => nbitsOk n
  | .adds n v => nbitsOk n && signedOk v
  | .uinit l => lenOk l
  | .read n => nbitsOk n
  | .reads n => nbitsOk n
  | .brd a => addrOk a
  | .bwr a b => addrOk a && (decide (0 ≤ b) && decide (b ≤ 255))
  | .put d v => d.wf && (!d.signed || signedOk v)
  | .get d => d.wf
  | .skip n => decide (0 ≤ n) && decide (n ≤ 57)
  | .nop => true
  | .bzero a => addrOk a

end Sys2Proof
end

