-- ==== Sys2Proof/Machine/Assembler.lean ====
section
/-! DEFINITION. The assembler of 30_encoding.md: what each line encodes and which lines it rejects (R70), the pseudo-instructions'
expansions (R71), and the written form of a line (R70, log 13). The host's tool, not part of the block. -/

namespace Sys2Proof.Machine

/-- The command a line stands for (R70, R71). A number wider than its field is rejected by `assemble` first. -/
def expandLine : AsmLine → Instr
  | .stat => .stat
  | .pnew => .pnew
  | .prst => .prst
  | .wpos => .wpos
  | .plen => .plen
  | .rpos => .rpos
  | .ulenr => .ulenr
  | .add n v => .add (BitVec.ofInt 6 n) (portWord v)
  | .adds n v => .adds (BitVec.ofInt 6 n) (portWord v)
  | .uinit l => .uinit (portWord l)
  | .read n => .read (BitVec.ofInt 6 n)
  | .reads n => .reads (BitVec.ofInt 6 n)
  | .brd a => .brd (BitVec.ofInt 22 a)
  | .bwr a b => .bwr (BitVec.ofInt 22 a) (BitVec.ofInt 8 b)
  | .put d v =>
    if d.signed then .adds (BitVec.ofNat 6 d.width) (portWord v) else .add (BitVec.ofNat 6 d.width) (portWord v)
  | .get d => if d.signed then .reads (BitVec.ofNat 6 d.width) else .read (BitVec.ofNat 6 d.width)
  | .skip n => .read (BitVec.ofInt 6 n)
  | .nop => .stat
  | .bzero a => .bwr (BitVec.ofInt 22 a) 0

/-- The assembler: the command of an accepted line, nothing for a rejected one (R70). -/
def assemble (l : AsmLine) : Option Instr := if l.wf then some (expandLine l) else none

/-! ## The written form of a line -/

/-- A piece of a line: a run of characters, or a comma. -/
inductive AsmToken where
  | word (cs : List Char)
  | comma
deriving DecidableEq, Repr

/-- A line without its comment: `;` starts one (R70). -/
def dropComment : List Char → List Char
  | [] => []
  | c :: cs => if c = ';' then [] else c :: dropComment cs

/-- The word read so far, if it has a character, before further tokens. -/
def flushWord (cur : List Char) (ts : List AsmToken) : List AsmToken :=
  if cur.isEmpty then ts else .word cur.reverse :: ts

/-- The tokens of a line: blanks and tabs separate words (log 13). `cur` holds the word being read, backwards. -/
def tokens (cur : List Char) : List Char → List AsmToken
  | [] => flushWord cur []
  | c :: cs =>
    if c = ' ' ∨ c = '\t' then flushWord cur (tokens [] cs)
    else if c = ',' then flushWord cur (.comma :: tokens [] cs)
    else tokens (c :: cur) cs

/-- A digit's value below `base`, hexadecimal letters in either case (log 13). -/
def digitValue (base : Nat) (c : Char) : Option Nat :=
  let v := if '0' ≤ c ∧ c ≤ '9' then some (c.toNat - 48)
    else if 'a' ≤ c ∧ c ≤ 'f' then some (c.toNat - 87)
    else if 'A' ≤ c ∧ c ≤ 'F' then some (c.toNat - 55)
    else none
  v.bind fun k => if k < base then some k else none

/-- The digits after `acc`, most significant first. -/
def digits (base acc : Nat) : List Char → Option Nat
  | [] => some acc
  | c :: cs => (digitValue base c).bind fun k => digits base (acc * base + k) cs

/-- A number without a sign: decimal, or hexadecimal with the prefix `0x` (R70). -/
def unsignedNumber : List Char → Option Nat
  | [] => none
  | '0' :: 'x' :: c :: cs => digits 16 0 (c :: cs)
  | c :: cs => digits 10 0 (c :: cs)

/-- A number, with `-` before it if it is negative (R70, R72). -/
def number : List Char → Option Int
  | '-' :: cs => (unsignedNumber cs).map fun n => -(n : Int)
  | cs => (unsignedNumber cs).map fun n => (n : Int)

/-- A field descriptor: `u<w>` or `s<w>` (R71). DESIGN CHOICE (log 13): w is written in decimal. R70 allows `0x` in numbers, and
R71 does not say whether it may stand in a descriptor. -/
def descriptor : List Char → Option Descriptor
  | 'u' :: c :: cs => (digits 10 0 (c :: cs)).map fun w => ⟨w, false⟩
  | 's' :: c :: cs => (digits 10 0 (c :: cs)).map fun w => ⟨w, true⟩
  | _ => none

/-- A line with a mnemonic alone (R70, R71). -/
def lineOf (m : List Char) : Option AsmLine :=
  if m = "stat".toList then some .stat
  else if m = "pnew".toList then some .pnew
  else if m = "prst".toList then some .prst
  else if m = "wpos".toList then some .wpos
  else if m = "plen".toList then some .plen
  else if m = "rpos".toList then some .rpos
  else if m = "ulenr".toList then some .ulenr
  else if m = "nop".toList then some .nop
  else none

/-- A line with one operand (R70, R71). -/
def lineOfOne (m x : List Char) : Option AsmLine :=
  if m = "uinit".toList then (number x).map .uinit
  else if m = "read".toList then (number x).map .read
  else if m = "reads".toList then (number x).map .reads
  else if m = "brd".toList then (number x).map .brd
  else if m = "skip".toList then (number x).map .skip
  else if m = "bzero".toList then (number x).map .bzero
  else if m = "get".toList then (descriptor x).map .get
  else none

/-- A line with two operands (R70, R71). -/
def lineOfTwo (m x y : List Char) : Option AsmLine :=
  (number y).bind fun v =>
    if m = "add".toList then (number x).map fun n => .add n v
    else if m = "adds".toList then (number x).map fun n => .adds n v
    else if m = "bwr".toList then (number x).map fun a => .bwr a v
    else if m = "put".toList then (descriptor x).map fun d => .put d v
    else none

/-- What a line of text holds. -/
inductive AsmText where
  /-- Nothing but blanks and a comment. -/
  | blank
  | line (l : AsmLine)
  /-- Not of the form of R70 or R71. -/
  | malformed
deriving DecidableEq, Repr

/-- Reads one line of text (R70). -/
def parseLine (text : List Char) : AsmText :=
  let found : Option AsmLine → AsmText
    | some l => .line l
    | none => .malformed
  match tokens [] (dropComment text) with
  | [] => .blank
  | [.word m] => found (lineOf m)
  | [.word m, .word x] => found (lineOfOne m x)
  | [.word m, .word x, .comma, .word y] => found (lineOfTwo m x y)
  | _ => .malformed

end Sys2Proof.Machine
end

