-- ==== Sys2Proof/Machine/HostProcedures.lean ====
section
/-! DEFINITION. The host procedures of 45_host_sequencing.md: encoding records (R160), DecodeAll (R161, R162, R165) and moving the
wire bytes (R164). They are the host's software; each only issues commands to the block and reads its answers. -/

namespace Sys2Proof.Machine

/-- The host issues one command and takes its answer: RESULT and the state after it if RESP = OK; otherwise the state in which
the host finds it was not (for a stop of the model, which no command reaches, the state before it). -/
def issue (i : Instr) (s : State) : Except State (Word × State) :=
  match serveCommand (encode i).1 (encode i).2 s with
  | .fault _ => .error s
  | .refused _ => .error s
  | .next s' =>
    match s'.answer with
    | none => .error s'
    | some a => if a.resp = .ok then .ok (a.result, s') else .error s'

/-! ## Encoding a record (R160) -/

/-- How writing records ends. -/
inductive Encoding where
  /-- Every command answered OK. -/
  | written (s : State)
  /-- A command did not answer OK; the host stops there. -/
  | fault (s : State)
  /-- The descriptors and a record's values do not fit each other, or a descriptor is none (R8, R108, R160, log 14): no command
  of that record is issued. `s` is the state the block is in, with the records before it written. -/
  | refused (s : State)
deriving DecidableEq, Repr

/-- The fields of one record, in descriptor order, each by the `put` of R71. -/
def putFields : List (Descriptor × Int) → State → Encoding
  | [], s => .written s
  | (d, x) :: fs, s =>
    match issue (expandLine (.put d x)) s with
    | .error s' => .fault s'
    | .ok (_, s') => putFields fs s'

/-- Encoding one record (R160): descriptors `ds`, one value for each. -/
def encodeRecord (ds : List Descriptor) (xs : List Int) (s : State) : Encoding :=
  if ds.length = xs.length ∧ (ds.zip xs).all (fun f => (AsmLine.put f.1 f.2).wf) then putFields (ds.zip xs) s
  else .refused s

/-- Encoding records one after the other, with no padding between them (R104, R160). DESIGN CHOICE (log 14): a record is checked
when its turn comes, so a record that is refused leaves the records before it in the buffer, and the records after it are not
looked at. -/
def encodeRecords (ds : List Descriptor) : List (List Int) → State → Encoding
  | [], s => .written s
  | xs :: xss, s =>
    match encodeRecord ds xs s with
    | .written s' => encodeRecords ds xss s'
    | .fault s' => .fault s'
    | .refused s' => .refused s'

/-! ## DecodeAll (R161) -/

/-- How DecodeAll ends. -/
inductive Decoding where
  /-- MORE = 0 between two records: the records read. -/
  | records (rs : List (List Int)) (s : State)
  /-- A command did not answer OK. -/
  | fault (s : State)
  /-- The descriptor list is empty or has a width outside 1..57: no command is issued (R165, I8). -/
  | refused
  /-- The loop's bound ran out. `decodeAll` gives the bound of R165, which no run reaches. -/
  | unfinished (s : State)
deriving DecidableEq, Repr

/-- One field: `reads w` or `read w`, its RESULT as an integer (R161). -/
def getField (d : Descriptor) (s : State) : Except State (Int × State) :=
  (issue (expandLine (.get d)) s).map fun r => (if d.signed then signedOf r.1 else (r.1.toNat : Int), r.2)

/-- One record: a field for each descriptor, in order, to the last one (R161, R162). -/
def getRecord : List Descriptor → State → Except State (List Int × State)
  | [], s => .ok ([], s)
  | d :: ds, s =>
    match getField d s with
    | .error s' => .error s'
    | .ok (x, s') => (getRecord ds s').map fun r => (x :: r.1, r.2)

/-- The loop of DecodeAll: STAT before each record, which is read while MORE = 1 (R161). -/
def decodeLoop : Nat → List Descriptor → State → Decoding
  | 0, _, s => .unfinished s
  | fuel + 1, ds, s =>
    match issue .stat s with
    | .error s' => .fault s'
    | .ok (status, s') =>
      if status.getLsbD 1 then
        match getRecord ds s' with
        | .error s'' => .fault s''
        | .ok (rec, s'') =>
          match decodeLoop fuel ds s'' with
          | .records rs t => .records (rec :: rs) t
          | .fault t => .fault t
          | .refused => .refused
          | .unfinished t => .unfinished t
      else .records [] s'

/-- DecodeAll(D, L) (R161). It reads at most 8*L records before MORE = 0 or a fault (R165), so 8*L + 1 turns suffice. -/
def decodeAll (ds : List Descriptor) (len : Word) (s : State) : Decoding :=
  if Descriptor.listWf ds then
    match issue (.uinit len) s with
    | .error s' => .fault s'
    | .ok (_, s') => decodeLoop (8 * len.toNat + 1) ds s'
  else .refused

/-! ## Moving the wire bytes (R164) -/

/-- The host writes a line and issues the command it encodes (R70); of a rejected line nothing is issued. -/
def issueLine (l : AsmLine) (s : State) : Except State (Word × State) :=
  if l.wf then issue (expandLine l) s else .error s

/-- `brd a .. brd (a + count - 1)`: the bytes leave the block. -/
def takeBytes : Nat → Nat → State → Except State (List Byte × State)
  | 0, _, s => .ok ([], s)
  | count + 1, a, s =>
    match issueLine (.brd a) s with
    | .error s' => .error s'
    | .ok (x, s') => (takeBytes count (a + 1) s').map fun r => (x.setWidth 8 :: r.1, r.2)

/-- `bwr a, b_0`, `bwr (a + 1), b_1` and so on: the bytes enter the block. -/
def loadBytes : Nat → List Byte → State → Except State State
  | _, [], s => .ok s
  | a, b :: bs, s =>
    match issueLine (.bwr a b.toNat) s with
    | .error s' => .error s'
    | .ok (_, s') => loadBytes (a + 1) bs s'

end Sys2Proof.Machine
end

