-- ==== Sys2Proof/Safety.lean ====
section
/-! DEFINITION. The terms in which claims speak of the block: the invariants of 10_state.md R33, the kinds of command
(60_exceptions.md R174; 20_memory.md R47, R48), the wide view of the buffer (R43) and safe outcomes. -/

namespace Sys2Proof.Machine

/-- What holds of a state from reset onward (R33, R22 to R25; log 9 for the buffer's form): both cursors and ULEN stay within
the buffer, CAUSE is NONE exactly while FAULT = 0, and the buffer's list is canonical and lists no address at N or above. -/
abbrev State.inv (s : State) : Prop :=
  s.w.pos ≤ 8 * s.capacity.bytes ∧ s.u.pos ≤ 8 * s.capacity.bytes ∧ s.ulen.toNat ≤ s.capacity.bytes ∧
  (s.fault = false ↔ s.cause = .none) ∧ s.buf.wf ∧ ∀ c ∈ s.buf, c.1 < s.capacity.bytes

/-- The query commands: they run while FAULT = 1 (R174). -/
def isQuery : Instr → Bool
  | .stat => true
  | .wpos => true
  | .plen => true
  | .rpos => true
  | .ulenr => true
  | .pnew => false
  | .prst => false
  | .add _ _ => false
  | .adds _ _ => false
  | .uinit _ => false
  | .read _ => false
  | .reads _ => false
  | .brd _ => false
  | .bwr _ _ => false

/-- The commands that can write a byte of BUF (R20, R40). -/
def writesBuffer : Instr → Bool
  | .pnew => true
  | .add _ _ => true
  | .adds _ _ => true
  | .bwr _ _ => true
  | .stat => false
  | .prst => false
  | .uinit _ => false
  | .read _ => false
  | .reads _ => false
  | .brd _ => false
  | .wpos => false
  | .plen => false
  | .rpos => false
  | .ulenr => false

/-- The commands that can clear a bit of BUF (R47). -/
def clearsBits : Instr → Bool
  | .pnew => true
  | .bwr _ _ => true
  | .add _ _ => false
  | .adds _ _ => false
  | .stat => false
  | .prst => false
  | .uinit _ => false
  | .read _ => false
  | .reads _ => false
  | .brd _ => false
  | .wpos => false
  | .plen => false
  | .rpos => false
  | .ulenr => false

/-- `k` consecutive bytes from index `j` read as one little-endian integer (R43). -/
def Memory.wide (m : Memory) (j : Nat) : Nat → Nat
  | 0 => 0
  | k + 1 => m.wide j k + (m.read (j + k)).toNat * 2 ^ (8 * k)

/-- The fault a command raises in a state with FAULT = 0, NONE if it raises none: the conditions of R170's table, in the order
of R175. -/
def faultOf (s : State) : Instr → Cause
  | .add n _ =>
    if 57 < n.toNat then .badWidth
    else if 0 < n.toNat ∧ 8 * s.capacity.bytes < s.w.pos + n.toNat then .wrOverflow else .none
  | .adds n _ =>
    if 57 < n.toNat then .badWidth else if 8 * s.capacity.bytes < s.w.pos + (n.toNat + 1) then .wrOverflow else .none
  | .read n =>
    if 57 < n.toNat then .badWidth
    else if 0 < n.toNat ∧ 8 * s.capacity.bytes < s.u.pos + n.toNat then .rdOverflow else .none
  | .reads n =>
    if 57 < n.toNat then .badWidth else if 8 * s.capacity.bytes < s.u.pos + (n.toNat + 1) then .rdOverflow else .none
  | .uinit len => if s.capacity.bytes < len.toNat then .badLen else .none
  | .brd a => if s.capacity.bytes ≤ a.toNat then .badAddr else .none
  | .bwr a _ => if s.capacity.bytes ≤ a.toNat then .badAddr else .none
  | .stat => .none
  | .pnew => .none
  | .prst => .none
  | .wpos => .none
  | .plen => .none
  | .rpos => .none
  | .ulenr => .none

/-- A value fits its field: an unsigned value is below 2^w, a signed one has a magnitude below 2^w (R97). -/
def fits (d : Descriptor) (x : Int) : Prop :=
  if d.signed then x.natAbs < 2 ^ d.width else 0 ≤ x ∧ x < 2 ^ d.width

/-- `k` steps one after the other, up to the first stop (R52: the order of commands is a total order). -/
def runSteps : Nat → State → Result
  | 0, s => .next s
  | k + 1, s =>
    match step s with
    | .next s' => runSteps k s'
    | .fault r => .fault r
    | .refused r => .refused r

/-- A step is safe if it neither stops with a fault of the model nor is refused. -/
abbrev Completes (r : Result) : Prop := ∃ t, r = .next t

end Sys2Proof.Machine
end

