-- ==== Sys2Proof/Certificates/Slice0/Obligations.lean ====
section
/-! DEFINITION. The statements about the block, each from the rules of spec/ its docstring names. -/

open Sys2Proof Sys2Proof.Machine

/-! ## Reset and the step -/

/-- R31: after reset every element of the state is zero, whatever the state before (BUF is read byte by byte). -/
def Obligations.ResetSetsEveryElement : Prop :=
  ∀ s : State, (∀ j, (hardReset s).buf.read j = 0x00) ∧ (hardReset s).w = ⟨0, 0⟩ ∧ (hardReset s).u = ⟨0, 0⟩ ∧
    (hardReset s).ulen = 0 ∧ (hardReset s).fault = false ∧ (hardReset s).cause.code = 0

/-- R33: the invariants (with the buffer's canonical form, log 9) hold right after reset, for every capacity, and so in the
constant `State.reset`. -/
def Obligations.ResetMeetsInvariant : Prop :=
  (∀ s : State, (hardReset s).inv) ∧ (∀ n : Capacity, (State.resetOf n).inv) ∧ State.reset.inv

/-- R33: every step keeps the invariants (with the buffer's canonical form, log 9), from every state that has them. -/
def Obligations.StepKeepsInvariant : Prop :=
  ∀ s t : State, s.inv → step s = .next t → t.inv

/-- R44, R171: every check of a command comes before its first access, so no access is to a byte at index N or above and no
step of the model ever stops. From every state, reached or not. -/
def Obligations.EveryStepCompletes : Prop :=
  ∀ s : State, Completes (step s)

/-- R60, R174: when the host's next action is a command whose word decodes, the step is that command's, in the state in which
the ports have moved on. The list of actions is the model's own field (log 2). -/
def Obligations.StepRunsDecodedCommand : Prop :=
  ∀ (s : State) (cmd : CmdWord) (data : Word) (rest : List HostAction) (i : Instr),
    s.pending = .command cmd data :: rest → decode cmd data = .command i → step s = exec i { s with pending := rest }

/-- R67, R174: a command word that does not decode is REJECTED while FAULT = 1 and raises BAD_CMD while FAULT = 0.
The list of actions is the model's own field (log 2). -/
def Obligations.StepAnswersIllegalWord : Prop :=
  ∀ (s : State) (cmd : CmdWord) (data : Word) (rest : List HostAction) (why : BadCmd),
    s.pending = .command cmd data :: rest → decode cmd data = .badCmd why →
      step s = .next (if s.fault then { s with pending := rest, answer := some ⟨.rejected, 0⟩ }
        else { s with pending := rest, fault := true, cause := .badCmd, answer := some ⟨.faulted, 0⟩ })

/-- The model's choice (log 2): a reset is one of the host's actions and takes one step; with no action pending nothing
changes. -/
def Obligations.StepResetsOrIdles : Prop :=
  (∀ (s : State) (rest : List HostAction), s.pending = .reset :: rest →
    step s = .next (hardReset { s with pending := rest })) ∧
  (∀ s : State, s.pending = [] → step s = .next s)

/-- R7, R21 (N never changes) and the model's choice of log 2 (each step takes exactly one action of the host). -/
def Obligations.StepTakesOneActionAndKeepsCapacity : Prop :=
  ∀ s t : State, step s = .next t → t.pending = s.pending.tail ∧ t.capacity = s.capacity

/-! ## Encoding -/

/-- R61, R64 to R68: decoding an encoded command gives it back, for every command and every value of every field. -/
def Obligations.EncodedCommandDecodes : Prop :=
  ∀ i : Instr, decode (encode i).1 (encode i).2 = .command i

/-- R61, R66, R68: a word that decodes is the encoding of what it decodes to, and the operand bits the encoding drops do not
matter (R64). -/
def Obligations.DecodedWordReencodes : Prop :=
  ∀ (cmd : CmdWord) (data : Word) (i : Instr), decode cmd data = .command i →
    (encode i).1 = cmd ∧ decode cmd (encode i).2 = .command i

/-- R66, R67: a word decodes exactly if it matches a row of the opcode map, whatever the operand. -/
def Obligations.DecodeAcceptsExactlyTheTable : Prop :=
  ∀ (cmd : CmdWord) (data : Word),
    (∃ i, decode cmd data = .command i) ↔ ∃ r ∈ opcodeTable, cmd &&& r.mask = r.bits

/-- R66: no word matches two rows of the opcode map. -/
def Obligations.OpcodeRowsAreDisjoint : Prop :=
  ∀ (cmd : CmdWord), ∀ r ∈ opcodeTable, ∀ r' ∈ opcodeTable,
    cmd &&& r.mask = r.bits → cmd &&& r'.mask = r'.bits → r = r'

/-- R72's ten examples; the words of the other commands without an operand field (R65); and the two reserved opcodes (R67). Each
word decodes to the command it stands for, or to none. -/
def Obligations.SpecWordsDecode : Prop :=
  decode 0x000000E4 0xFFFFFFFFFFFFF93E = .command (.adds 14 (BitVec.ofInt 64 (-1730))) ∧
  decode 0x00000073 0x41 = .command (.add 7 65) ∧
  decode 0x00000113 0x163 = .command (.add 17 355) ∧
  decode 0x000000C3 0x591 = .command (.add 12 1425) ∧
  decode 0x000000E7 0 = .command (.reads 14) ∧
  decode 0x00000396 0 = .command (.read 57) ∧
  decode 0x00001408 0 = .command (.brd 5) ∧
  decode 0x00000C09 0xFF = .command (.bwr 3 0xFF) ∧
  decode 0x00000005 6 = .command (.uinit 6) ∧
  decode 0x00000000 0 = .command .stat ∧
  decode 0x00000001 0 = .command .pnew ∧
  decode 0x00000002 0 = .command .prst ∧
  decode 0x0000000A 0 = .command .wpos ∧
  decode 0x0000000B 0 = .command .plen ∧
  decode 0x0000000C 0 = .command .rpos ∧
  decode 0x0000000D 0 = .command .ulenr ∧
  decode 0x0000000E 0 = .badCmd .reservedOp ∧
  decode 0x0000000F 0 = .badCmd .reservedOp

/-- R64: a command other than ADD, ADDS, UINIT and BWR ignores the operand port, and BWR all but its low 8 bits. -/
def Obligations.UnusedOperandBitsAreIgnored : Prop :=
  ∀ (cmd : CmdWord) (d d' : Word) (s : State),
    (opField cmd ≠ 0x3 → opField cmd ≠ 0x4 → opField cmd ≠ 0x5 → opField cmd ≠ 0x9 →
      serveCommand cmd d s = serveCommand cmd d' s) ∧
    (opField cmd = 0x9 → d.setWidth 8 = d'.setWidth 8 → serveCommand cmd d s = serveCommand cmd d' s)

/-! ## Faults -/

/-- R170: which fault a command raises while FAULT = 0, with R175's order; where the table names none, none is raised and the
command answers OK. -/
def Obligations.FaultTableIsExact : Prop :=
  ∀ (i : Instr) (s : State), s.fault = false → ∃ t, exec i s = .next t ∧
    (faultOf s i = .none → t.fault = false ∧ t.cause = s.cause ∧ ∃ x, t.answer = some ⟨.ok, x⟩) ∧
    (faultOf s i ≠ .none → t = { s with fault := true, cause := faultOf s i, answer := some ⟨.faulted, 0⟩ })

/-- R171: a command that raises a fault sets FAULT and CAUSE, answers FAULTED with RESULT = 0 and changes nothing else. -/
def Obligations.FaultsArePrecise : Prop :=
  ∀ (cmd : CmdWord) (data : Word) (s t : State), s.fault = false → serveCommand cmd data s = .next t → t.fault = true →
    t.cause ≠ .none ∧ t = { s with fault := true, cause := t.cause, answer := some ⟨.faulted, 0⟩ }

/-- R172, R174: once FAULT = 1, and until the host resets the block, no run of any length changes anything but the answer (and
the list of the host's actions, the model's own field of log 2, which only gets shorter). -/
def Obligations.FaultIsStickyUntilReset : Prop :=
  ∀ (k : Nat) (s t : State), s.fault = true → (∀ a ∈ s.pending.take k, a ≠ .reset) →
    runSteps k s = .next t → t = { s with answer := t.answer, pending := s.pending.drop k }

/-- R174: the fault gate. While FAULT = 1 a query executes normally, answering OK and changing no state, and every other word
is REJECTED and changes no state; while FAULT = 0 an illegal word raises BAD_CMD and every other word is its command. -/
def Obligations.FaultGateAdmitsOnlyQueries : Prop :=
  ∀ (cmd : CmdWord) (data : Word) (s : State),
    (s.fault = true →
      (∀ i, decode cmd data = .command i → isQuery i = true →
        serveCommand cmd data s = exec i s ∧ ∃ x, exec i s = .next { s with answer := some ⟨.ok, x⟩ }) ∧
      ((∀ i, decode cmd data = .command i → isQuery i = false) →
        serveCommand cmd data s = .next { s with answer := some ⟨.rejected, 0⟩ })) ∧
    (s.fault = false →
      (∀ i, decode cmd data = .command i → serveCommand cmd data s = exec i s) ∧
      (∀ why, decode cmd data = .badCmd why →
        serveCommand cmd data s = .next { s with fault := true, cause := .badCmd, answer := some ⟨.faulted, 0⟩ }))

/-- R60: every command is answered. RESP is 2 exactly for a word that is no query while FAULT = 1, and then nothing but the answer
changes; RESP is 1 exactly where the command raises FAULT, and then nothing but FAULT, CAUSE and the answer changes; everywhere
else RESP is 0, and FAULT and CAUSE stay. RESULT is 0 with RESP 1 and 2. (The answer is the model's own field, log 3.) -/
def Obligations.ResponseCodeTellsTheOutcome : Prop :=
  ∀ (cmd : CmdWord) (data : Word) (s : State), ∃ t a, serveCommand cmd data s = .next t ∧ t.answer = some a ∧
    (a.resp.code = 2 ↔ s.fault = true ∧ ∀ i, decode cmd data = .command i → isQuery i = false) ∧
    (a.resp.code = 1 ↔ s.fault = false ∧ t.fault = true) ∧
    (a.resp.code = 0 ↔ ¬ (s.fault = true ∧ ∀ i, decode cmd data = .command i → isQuery i = false) ∧ t.fault = s.fault) ∧
    (a.resp.code = 2 → t = { s with answer := some a } ∧ a.result = 0) ∧
    (a.resp.code = 1 → t = { s with fault := true, cause := t.cause, answer := some a } ∧ a.result = 0) ∧
    (a.resp.code = 0 → t.cause = s.cause)

/-- R63, R170, R175: ADD, ADDS, READ and READS with NBITS 58 to 63 raise BAD_WIDTH, even where the extent is out of bounds
too. -/
def Obligations.WideFieldRaisesBadWidth : Prop :=
  ∀ (n : BitVec 6) (data : Word) (s : State), s.fault = false → 57 < n.toNat →
    ∀ i ∈ [Instr.add n data, .adds n data, .read n, .reads n],
      exec i s = .next { s with fault := true, cause := .badWidth, answer := some ⟨.faulted, 0⟩ }

/-- R44, R102, R106: a packer command of a legal width whose whole extent does not fit raises WR_OVERFLOW. -/
def Obligations.PackerPastTheEndOverflows : Prop :=
  ∀ (n : BitVec 6) (data : Word) (s : State), s.fault = false → n.toNat ≤ 57 →
    (0 < n.toNat → 8 * s.capacity.bytes < s.w.pos + n.toNat →
      exec (.add n data) s = .next { s with fault := true, cause := .wrOverflow, answer := some ⟨.faulted, 0⟩ }) ∧
    (8 * s.capacity.bytes < s.w.pos + n.toNat + 1 →
      exec (.adds n data) s = .next { s with fault := true, cause := .wrOverflow, answer := some ⟨.faulted, 0⟩ })

/-- R44, R122, R125: a reader command of a legal width whose whole extent does not fit raises RD_OVERFLOW. -/
def Obligations.ReaderPastTheEndOverflows : Prop :=
  ∀ (n : BitVec 6) (s : State), s.fault = false → n.toNat ≤ 57 →
    (0 < n.toNat → 8 * s.capacity.bytes < s.u.pos + n.toNat →
      exec (.read n) s = .next { s with fault := true, cause := .rdOverflow, answer := some ⟨.faulted, 0⟩ }) ∧
    (8 * s.capacity.bytes < s.u.pos + n.toNat + 1 →
      exec (.reads n) s = .next { s with fault := true, cause := .rdOverflow, answer := some ⟨.faulted, 0⟩ })

/-- R120, R150, R152: UINIT above N raises BAD_LEN; BRD and BWR at N or above raise BAD_ADDR. -/
def Obligations.OperandPastTheBufferFaults : Prop :=
  ∀ s : State, s.fault = false →
    (∀ len : Word, s.capacity.bytes < len.toNat →
      exec (.uinit len) s = .next { s with fault := true, cause := .badLen, answer := some ⟨.faulted, 0⟩ }) ∧
    (∀ (a : BitVec 22) (b : Byte), s.capacity.bytes ≤ a.toNat →
      exec (.brd a) s = .next { s with fault := true, cause := .badAddr, answer := some ⟨.faulted, 0⟩ } ∧
      exec (.bwr a b) s = .next { s with fault := true, cause := .badAddr, answer := some ⟨.faulted, 0⟩ })

/-! ## The packer -/

/-- R100: PNEW clears every byte and moves W to the origin; every other field stays. -/
def Obligations.PnewClearsBufferAndCursor : Prop :=
  ∀ s : State, s.fault = false → ∃ t, exec .pnew s = .next t ∧
    t = { s with buf := t.buf, w := ⟨0, 0⟩, answer := some ⟨.ok, 0⟩ } ∧
    (∀ j, j < s.capacity.bytes → t.buf.read j = 0x00) ∧
    (∀ j, s.capacity.bytes ≤ j → t.buf.read j = s.buf.read j)

/-- R100, R31 and the buffer's canonical form (log 9): in a state that meets the invariants, PNEW leaves exactly the buffer of
the reset state. -/
def Obligations.PnewRestoresResetBuffer : Prop :=
  ∀ s : State, s.inv → s.fault = false →
    exec .pnew s = .next { s with buf := (State.resetOf s.capacity).buf, w := ⟨0, 0⟩, answer := some ⟨.ok, 0⟩ }

/-- R101: PRST moves W to the origin and changes nothing else, no byte of BUF among it. -/
def Obligations.PrstMovesOnlyTheCursor : Prop :=
  ∀ s : State, s.fault = false → exec .prst s = .next { s with w := ⟨0, 0⟩, answer := some ⟨.ok, 0⟩ }

/-- R102, R103: an ADD of a legal width that fits ORs the low NBITS bits of DATA into the bits from pos(W) up, moves W by NBITS
and changes no other bit, no byte outside the bytes the extent touches (R44), and no other field. -/
def Obligations.AddOrsFieldAtCursor : Prop :=
  ∀ (n : BitVec 6) (v : Word) (s : State), s.fault = false → n.toNat ≤ 57 →
    (n.toNat = 0 ∨ s.w.pos + n.toNat ≤ 8 * s.capacity.bytes) → ∃ t, exec (.add n v) s = .next t ∧
      t = { s with buf := t.buf, w := Cursor.dec (s.w.pos + n.toNat), answer := some ⟨.ok, 0⟩ } ∧
      (∀ q, t.bitAt q = if s.w.pos ≤ q ∧ q < s.w.pos + n.toNat then s.bitAt q || v.getLsbD (q - s.w.pos) else s.bitAt q) ∧
      (∀ a, ¬ (n.toNat ≠ 0 ∧ s.w.pos / 8 ≤ a ∧ a ≤ (s.w.pos + n.toNat - 1) / 8) → t.buf.read a = s.buf.read a)

/-- R106 to R108: an ADDS of a legal width that fits ORs the sign of DATA, read as a two's-complement integer (log 12), at pos(W)
and the low NBITS bits of its absolute value above it, moves W by NBITS + 1 and changes no other bit, no byte outside the extent and no
other field. -/
def Obligations.AddsOrsSignAndMagnitude : Prop :=
  ∀ (n : BitVec 6) (d : Word) (s : State), s.fault = false → n.toNat ≤ 57 →
    s.w.pos + n.toNat + 1 ≤ 8 * s.capacity.bytes → ∃ t, exec (.adds n d) s = .next t ∧
      t = { s with buf := t.buf, w := Cursor.dec (s.w.pos + n.toNat + 1), answer := some ⟨.ok, 0⟩ } ∧
      (∀ q, t.bitAt q =
        if q = s.w.pos then s.bitAt q || decide (d.toInt < 0)
        else if s.w.pos < q ∧ q ≤ s.w.pos + n.toNat then s.bitAt q || d.toInt.natAbs.testBit (q - s.w.pos - 1)
        else s.bitAt q) ∧
      (∀ a, ¬ (s.w.pos / 8 ≤ a ∧ a ≤ (s.w.pos + n.toNat) / 8) → t.buf.read a = s.buf.read a)

/-- R96, R102: of DATA, ADD uses the low NBITS bits only. -/
def Obligations.AddDiscardsHighBits : Prop :=
  ∀ (n : BitVec 6) (v v' : Word) (s : State), v.toNat % 2 ^ n.toNat = v'.toNat % 2 ^ n.toNat →
    exec (.add n v) s = exec (.add n v') s

/-- R47: no command but PNEW and BWR ever clears a bit of BUF. -/
def Obligations.OnlyPnewAndBwrClearBits : Prop :=
  ∀ (i : Instr) (s t : State), exec i s = .next t → clearsBits i = false → ∀ q, s.bitAt q = true → t.bitAt q = true

/-- R98: two ADDs back to back fill n + k consecutive bits from the first cursor position, with no gap and no overlap. -/
def Obligations.AddsArePackedWithoutGap : Prop :=
  ∀ (n k : BitVec 6) (v v' : Word) (s : State), s.fault = false → n.toNat ≤ 57 → k.toNat ≤ 57 →
    s.w.pos + n.toNat + k.toNat ≤ 8 * s.capacity.bytes →
    ∃ t t', exec (.add n v) s = .next t ∧ exec (.add k v') t = .next t' ∧
      t'.w = Cursor.dec (s.w.pos + n.toNat + k.toNat) ∧
      ∀ q, t'.bitAt q =
        if s.w.pos ≤ q ∧ q < s.w.pos + n.toNat then s.bitAt q || v.getLsbD (q - s.w.pos)
        else if s.w.pos + n.toNat ≤ q ∧ q < s.w.pos + n.toNat + k.toNat
          then s.bitAt q || v'.getLsbD (q - s.w.pos - n.toNat)
        else s.bitAt q

/-! ## The unpacker -/

/-- R120: UINIT with a length of at most N moves U to the origin and sets ULEN; BUF, W and every other field stay; MORE becomes
0 < L. -/
def Obligations.UinitCreatesUnpacker : Prop :=
  ∀ (len : Word) (s : State), s.fault = false → len.toNat ≤ s.capacity.bytes → ∃ t, exec (.uinit len) s = .next t ∧
    t = { s with u := ⟨0, 0⟩, ulen := t.ulen, answer := some ⟨.ok, 0⟩ } ∧ t.ulen.toNat = len.toNat ∧
    t.more = decide (0 < len.toNat)

/-- R122, R123: a READ of a legal width that fits returns the NBITS bits at pos(U), zero-extended, moves U by NBITS and changes
nothing else. -/
def Obligations.ReadReturnsFieldAtCursor : Prop :=
  ∀ (n : BitVec 6) (s : State), s.fault = false → n.toNat ≤ 57 →
    (n.toNat = 0 ∨ s.u.pos + n.toNat ≤ 8 * s.capacity.bytes) → ∃ r : Word,
      exec (.read n) s = .next { s with u := Cursor.dec (s.u.pos + n.toNat), answer := some ⟨.ok, r⟩ } ∧
      ∀ i, r.getLsbD i = (decide (i < n.toNat) && s.bitAt (s.u.pos + i))

/-- R125 to R127: a READS of a legal width that fits returns, in two's complement (log 12), the integer whose sign is the bit at
pos(U) and whose magnitude m is the NBITS bits above it (so the wire's -0 returns 0); it moves U by NBITS + 1 and changes nothing
else. -/
def Obligations.ReadsReturnsSignedField : Prop :=
  ∀ (n : BitVec 6) (s : State), s.fault = false → n.toNat ≤ 57 →
    s.u.pos + n.toNat + 1 ≤ 8 * s.capacity.bytes → ∃ m : Nat,
      (∀ i, m.testBit i = (decide (i < n.toNat) && s.bitAt (s.u.pos + 1 + i))) ∧
      exec (.reads n) s = .next { s with
        u := Cursor.dec (s.u.pos + n.toNat + 1),
        answer := some ⟨.ok, BitVec.ofInt 64 (if s.bitAt s.u.pos then -(m : Int) else m)⟩ }

/-- R98: two READs back to back return the low and the high part of what one READ of both widths returns, and leave U where it
does. -/
def Obligations.ReadsConcatenate : Prop :=
  ∀ (n k : BitVec 6) (s : State), s.fault = false → n.toNat + k.toNat ≤ 57 →
    s.u.pos + n.toNat + k.toNat ≤ 8 * s.capacity.bytes → ∃ t t' t'' r r', exec (.read n) s = .next t ∧
      exec (.read k) t = .next t' ∧ t.answer = some ⟨.ok, r⟩ ∧ t'.answer = some ⟨.ok, r'⟩ ∧
      exec (.read (n + k)) s = .next t'' ∧ t''.u = t'.u ∧ t''.answer = some ⟨.ok, r ||| (r' <<< n.toNat)⟩

/-- R24, R128: ULEN does not limit a read: with another ULEN the same read gives the same answer and the same cursor. -/
def Obligations.UlenDoesNotLimitReads : Prop :=
  ∀ (n : BitVec 6) (len : BitVec 23) (s t : State),
    (exec (.read n) s = .next t → exec (.read n) { s with ulen := len } = .next { t with ulen := len }) ∧
    (exec (.reads n) s = .next t → exec (.reads n) { s with ulen := len } = .next { t with ulen := len })

/-- R48: the commands that do not write the buffer leave it as it is, byte for byte. -/
def Obligations.NonWritersKeepBuffer : Prop :=
  ∀ (i : Instr) (s t : State), exec i s = .next t → writesBuffer i = false → t.buf = s.buf

/-- R87, R121: a cursor moves back only to the origin: W by PNEW or PRST, U by UINIT. -/
def Obligations.CursorsMoveBackOnlyToOrigin : Prop :=
  ∀ (i : Instr) (s t : State), exec i s = .next t →
    (t.w.pos < s.w.pos → (i = .pnew ∨ i = .prst) ∧ t.w = ⟨0, 0⟩) ∧
    (t.u.pos < s.u.pos → (∃ len, i = .uinit len) ∧ t.u = ⟨0, 0⟩)

/-- R82: a bit command that answers OK moves its cursor by exactly the number of bits it writes or reads, ADD and READ by NBITS,
ADDS and READS by NBITS + 1. -/
def Obligations.BitCommandsAdvanceTheirCursor : Prop :=
  ∀ (n : BitVec 6) (data : Word) (s t : State), s.fault = false → t.fault = false →
    (exec (.add n data) s = .next t → t.w = Cursor.dec (s.w.pos + n.toNat) ∧ t.w.pos = s.w.pos + n.toNat) ∧
    (exec (.adds n data) s = .next t → t.w = Cursor.dec (s.w.pos + (n.toNat + 1)) ∧ t.w.pos = s.w.pos + (n.toNat + 1)) ∧
    (exec (.read n) s = .next t → t.u = Cursor.dec (s.u.pos + n.toNat) ∧ t.u.pos = s.u.pos + n.toNat) ∧
    (exec (.reads n) s = .next t → t.u = Cursor.dec (s.u.pos + (n.toNat + 1)) ∧ t.u.pos = s.u.pos + (n.toNat + 1))

/-! ## Round trips -/

/-- R96, R97: where the bits were zero, reading at the same position and width what ADD wrote returns DATA mod 2^w. -/
def Obligations.UnsignedFieldRoundTrip : Prop :=
  ∀ (n : BitVec 6) (v : Word) (s : State), s.fault = false → 1 ≤ n.toNat → n.toNat ≤ 57 →
    s.w.pos + n.toNat ≤ 8 * s.capacity.bytes → s.u = s.w →
    (∀ q, s.w.pos ≤ q → q < s.w.pos + n.toNat → s.bitAt q = false) →
    ∃ t t', exec (.add n v) s = .next t ∧ exec (.read n) t = .next t' ∧
      t'.answer = some ⟨.ok, BitVec.ofNat 64 (v.toNat % 2 ^ n.toNat)⟩

/-- R96, R97: where the bits were zero, reading at the same position and width what ADDS wrote returns the operand with its
magnitude mod 2^w and its sign kept; an operand that fits comes back unchanged. DATA and RESULT are read as two's complement
(log 12). -/
def Obligations.SignedFieldRoundTrip : Prop :=
  ∀ (n : BitVec 6) (d : Word) (s : State), s.fault = false → n.toNat ≤ 57 →
    s.w.pos + n.toNat + 1 ≤ 8 * s.capacity.bytes → s.u = s.w →
    (∀ q, s.w.pos ≤ q → q ≤ s.w.pos + n.toNat → s.bitAt q = false) →
    ∃ t t' r, exec (.adds n d) s = .next t ∧ exec (.reads n) t = .next t' ∧ t'.answer = some ⟨.ok, r⟩ ∧
      r.toInt = (if d.toInt < 0 then -((d.toInt.natAbs % 2 ^ n.toNat : Nat) : Int)
        else ((d.toInt.natAbs % 2 ^ n.toNat : Nat) : Int)) ∧
      (d.toInt.natAbs < 2 ^ n.toNat → r = d)

/-! ## Status, position and byte access -/

/-- R28, R29, R140: STAT answers, whether or not FAULT = 1, the word with FAULT in bit 0, MORE in bit 1, CAUSE in bits 7:4, with
the codes 0 to 6 of R170, and every other bit 0, and changes no state. -/
def Obligations.StatReturnsStatusWord : Prop :=
  ∀ s : State, ∃ x : Word, exec .stat s = .next { s with answer := some ⟨.ok, x⟩ } ∧
    x.getLsbD 0 = s.fault ∧ x.getLsbD 1 = decide (s.u.byte.toNat < s.ulen.toNat) ∧ x.extractLsb' 2 2 = 0 ∧
    x.extractLsb' 8 56 = 0 ∧
    (s.cause = .none → x.extractLsb' 4 4 = 0) ∧ (s.cause = .wrOverflow → x.extractLsb' 4 4 = 1) ∧
    (s.cause = .rdOverflow → x.extractLsb' 4 4 = 2) ∧ (s.cause = .badWidth → x.extractLsb' 4 4 = 3) ∧
    (s.cause = .badCmd → x.extractLsb' 4 4 = 4) ∧ (s.cause = .badAddr → x.extractLsb' 4 4 = 5) ∧
    (s.cause = .badLen → x.extractLsb' 4 4 = 6)

/-- R30, R142, R144, R146, R148: the position and length queries answer, whether or not FAULT = 1, the number the rule gives, and
change no state. -/
def Obligations.QueriesReturnPositionsAndLengths : Prop :=
  ∀ s : State, ∃ w p r l : Word,
    exec .wpos s = .next { s with answer := some ⟨.ok, w⟩ } ∧ w.toNat = 8 * s.w.byte.toNat + s.w.bit.toNat ∧
    exec .plen s = .next { s with answer := some ⟨.ok, p⟩ } ∧
      p.toNat = (if s.w.bit.toNat = 0 then s.w.byte.toNat else s.w.byte.toNat + 1) ∧
    exec .rpos s = .next { s with answer := some ⟨.ok, r⟩ } ∧ r.toNat = 8 * s.u.byte.toNat + s.u.bit.toNat ∧
    exec .ulenr s = .next { s with answer := some ⟨.ok, l⟩ } ∧ l.toNat = s.ulen.toNat

/-- R150: BRD below N answers the byte, zero-extended, and changes nothing else. -/
def Obligations.BrdReturnsByte : Prop :=
  ∀ (a : BitVec 22) (s : State), s.fault = false → a.toNat < s.capacity.bytes → ∃ x : Word,
    exec (.brd a) s = .next { s with answer := some ⟨.ok, x⟩ } ∧ x.toNat = (s.buf.read a.toNat).toNat

/-- R152: BWR below N replaces the byte, all 8 bits of it, and changes no other byte and no other field. -/
def Obligations.BwrReplacesByte : Prop :=
  ∀ (a : BitVec 22) (b : Byte) (s : State), s.fault = false → a.toNat < s.capacity.bytes → ∃ t,
    exec (.bwr a b) s = .next t ∧ t = { s with buf := t.buf, answer := some ⟨.ok, 0⟩ } ∧
    t.buf.read a.toNat = b ∧ ∀ j, j ≠ a.toNat → t.buf.read j = s.buf.read j

/-! ## The cursor arithmetic and the wide view -/

/-- R81: a bit position and its cursor determine each other, for every cursor and every position a cursor can hold, and the
order of positions is the lexicographic order of cursors. -/
def Obligations.PositionAndCursorAreInverse : Prop :=
  (∀ c : Cursor, Cursor.dec c.pos = c) ∧ (∀ p, p < 2 ^ 26 → (Cursor.dec p).pos = p) ∧
  (∀ c d : Cursor, c.pos < d.pos ↔
    c.byte.toNat < d.byte.toNat ∨ (c.byte.toNat = d.byte.toNat ∧ c.bit.toNat < d.bit.toNat))

/-- R84, R85, R45, R89, R90: WriteBits and ReadBits, from every state and whether or not they succeed, access the buffer by exactly
the chunks of n bits at their cursor's position; where they succeed they move that cursor by n bits. Those chunks touch their
bytes one after the other, each once; each has 1 to 8 bits inside its byte, the first starts at the position's bit offset and
every other one at bit 0, together they are n bits, and an operation of at most 58 bits has at most 9 of them. -/
def Obligations.ChunkSplitIsExact : Prop :=
  (∀ (v : Word) (n : Nat) (s : State),
    writeBits v n s = (writeAlong (chunks s.w.pos n) v s).map (fun t => { t with w := s.w.adv n }) ∧
    readBits n s = (readAlong (chunks s.u.pos n) s).map (fun x => (x, { s with u := s.u.adv n }))) ∧
  ∀ p n : Nat,
    (chunks p n).map Chunk.byte = List.range' (p / 8) (if n = 0 then 0 else (p % 8 + n - 1) / 8 + 1) ∧
    (∀ c ∈ (chunks p n).head?, c.offset = p % 8) ∧
    (∀ c ∈ chunks p n, 1 ≤ c.len ∧ c.offset + c.len ≤ 8) ∧ (∀ c ∈ (chunks p n).tail, c.offset = 0) ∧
    ((chunks p n).map Chunk.len).sum = n ∧ (n ≤ 58 → (chunks p n).length ≤ 9)

/-- R43: bit q of consecutive bytes read as one little-endian integer is the buffer's bit 8j + q, and a field of width w at bit
position P inside those bytes is that integer shifted right by P - 8j, mod 2^w. -/
def Obligations.WideViewShowsFields : Prop :=
  ∀ (s : State) (j k : Nat),
    (∀ q, (s.buf.wide j k).testBit q = (decide (q < 8 * k) && s.bitAt (8 * j + q))) ∧
    (∀ p w i, 8 * j ≤ p → p + w ≤ 8 * (j + k) →
      (s.buf.wide j k / 2 ^ (p - 8 * j) % 2 ^ w).testBit i = (decide (i < w) && s.bitAt (p + i)))

/-! ## The assembler and the host's procedures -/

/-- R70, R61: the word and the operand of every line with operands that the assembler accepts, CMD = OP + 16 * NBITS +
1024 * ADDR. That `uinit` takes every length of 64 bits is the model's choice (log 13). -/
def Obligations.AssemblerEncodesLines : Prop :=
  ∀ (n a v : Int),
    (0 ≤ n → n ≤ 63 →
      (assemble (.add n v)).map encode = some (BitVec.ofInt 32 (3 + 16 * n), BitVec.ofInt 64 v) ∧
      (-2 ^ 63 ≤ v → v < 2 ^ 63 →
        (assemble (.adds n v)).map encode = some (BitVec.ofInt 32 (4 + 16 * n), BitVec.ofInt 64 v)) ∧
      (assemble (.read n)).map encode = some (BitVec.ofInt 32 (6 + 16 * n), 0) ∧
      (assemble (.reads n)).map encode = some (BitVec.ofInt 32 (7 + 16 * n), 0)) ∧
    (0 ≤ a → a < 2 ^ 22 →
      (assemble (.brd a)).map encode = some (BitVec.ofInt 32 (8 + 1024 * a), 0) ∧
      (0 ≤ v → v ≤ 255 →
        (assemble (.bwr a v)).map encode = some (BitVec.ofInt 32 (9 + 1024 * a), BitVec.ofInt 64 v))) ∧
    (0 ≤ v → v < 2 ^ 64 → (assemble (.uinit v)).map encode = some (5, BitVec.ofInt 64 v))

/-- R70, R71: the assembler rejects a width, an address or a byte out of range, and the pseudo-instructions are the commands the
rule says they expand to. -/
def Obligations.AssemblerRejectsAndExpands : Prop :=
  (∀ n v : Int, n < 0 ∨ 63 < n → assemble (.add n v) = none ∧ assemble (.adds n v) = none ∧
    assemble (.read n) = none ∧ assemble (.reads n) = none) ∧
  (∀ a v : Int, a < 0 ∨ 2 ^ 22 ≤ a → assemble (.brd a) = none ∧ assemble (.bwr a v) = none) ∧
  (∀ a v : Int, v < 0 ∨ 255 < v → assemble (.bwr a v) = none) ∧
  (∀ (w : Nat) (v : Int), 1 ≤ w → w ≤ 57 →
    assemble (.put ⟨w, false⟩ v) = assemble (.add w v) ∧ assemble (.put ⟨w, true⟩ v) = assemble (.adds w v) ∧
    assemble (.get ⟨w, false⟩) = assemble (.read w) ∧ assemble (.get ⟨w, true⟩) = assemble (.reads w)) ∧
  (∀ n : Int, 0 ≤ n → n ≤ 57 → assemble (.skip n) = assemble (.read n)) ∧
  (∀ a : Int, assemble (.bzero a) = assemble (.bwr a 0)) ∧ assemble .nop = assemble .stat

/-- R160: a record that is written whole moves W by exactly B(D) bits. What the procedure refuses is the model's choice (log
14). -/
def Obligations.RecordOccupiesItsBits : Prop :=
  ∀ (ds : List Descriptor) (xs : List Int) (s t : State), encodeRecord ds xs s = .written t →
    t.w.pos = s.w.pos + Descriptor.recordBits ds

/-- R161, R165: DecodeAll refuses exactly the lists that are empty or have a width outside 1..57, and its loop ends within the
bound the rule gives: it never runs out. -/
def Obligations.DecodeAllRefusesOrEnds : Prop :=
  ∀ (ds : List Descriptor) (len : Word) (s : State),
    (decodeAll ds len s = .refused ↔ ds = [] ∨ ∃ d ∈ ds, d.width = 0 ∨ 57 < d.width) ∧
    ∀ t, decodeAll ds len s ≠ .unfinished t

/-- R163: where DecodeAll ends without a fault, it returns exactly K >= 1 records if and only if
floor((K - 1)*B/8) < L <= floor(K*B/8). -/
def Obligations.DecodeAllRecordCount : Prop :=
  ∀ (ds : List Descriptor) (len : Word) (s t : State) (rs : List (List Int)),
    decodeAll ds len s = .records rs t → ∀ k, 1 ≤ k →
      (rs.length = k ↔
        (k - 1) * Descriptor.recordBits ds / 8 < len.toNat ∧ len.toNat ≤ k * Descriptor.recordBits ds / 8)

/-- R97, R160 to R163, R166: records of fitting values, written from the origin into a zero buffer, come back from DecodeAll with
the same descriptors and any valid length the record-count rule gives for them. The procedures' form is log 14's,
and signed values pass the ports in two's complement (log 12). -/
def Obligations.RecordsRoundTrip : Prop :=
  ∀ (ds : List Descriptor) (xss : List (List Int)) (len : Word) (s t : State), s.w = ⟨0, 0⟩ →
    (∀ q, s.bitAt q = false) → s.fault = false → Descriptor.listWf ds = true →
    (∀ xs ∈ xss, List.Forall₂ fits ds xs) → encodeRecords ds xss s = .written t →
    (xss.length - 1) * Descriptor.recordBits ds / 8 < len.toNat →
    len.toNat ≤ xss.length * Descriptor.recordBits ds / 8 →
    ∃ t', decodeAll ds len t = .records xss t'

/-- R164: the bytes taken out of one block with BRD and stored into another, whose buffer is zero, with BWR are there the same
bytes, and every byte after them reads as zero. -/
def Obligations.WireBytesMoveUnchanged : Prop :=
  ∀ (count : Nat) (s s' r : State) (bs : List Byte), takeBytes count 0 s = .ok (bs, s') → r.fault = false →
    (∀ j, r.buf.read j = 0x00) → count ≤ r.capacity.bytes → ∃ r', loadBytes 0 bs r = .ok r' ∧
      (∀ j, j < count → r'.buf.read j = s.buf.read j) ∧ ∀ j, count ≤ j → r'.buf.read j = 0x00
end

