-- ==== Sys2Proof/Laws/State.lean ====
section
/-! SUPPORT. One lemma for each field of the state under each named update of Machine/Ops.lean. -/

namespace Sys2Proof.Machine

@[simp] theorem State.setBuf_capacity (s : State) (m : Memory) : (s.setBuf m).capacity = s.capacity := rfl
@[simp] theorem State.setBuf_buf (s : State) (m : Memory) : (s.setBuf m).buf = m := rfl
@[simp] theorem State.setBuf_w (s : State) (m : Memory) : (s.setBuf m).w = s.w := rfl
@[simp] theorem State.setBuf_u (s : State) (m : Memory) : (s.setBuf m).u = s.u := rfl
@[simp] theorem State.setBuf_ulen (s : State) (m : Memory) : (s.setBuf m).ulen = s.ulen := rfl
@[simp] theorem State.setBuf_fault (s : State) (m : Memory) : (s.setBuf m).fault = s.fault := rfl
@[simp] theorem State.setBuf_cause (s : State) (m : Memory) : (s.setBuf m).cause = s.cause := rfl
@[simp] theorem State.setBuf_answer (s : State) (m : Memory) : (s.setBuf m).answer = s.answer := rfl
@[simp] theorem State.setBuf_pending (s : State) (m : Memory) : (s.setBuf m).pending = s.pending := rfl

@[simp] theorem State.setW_capacity (s : State) (c : Cursor) : (s.setW c).capacity = s.capacity := rfl
@[simp] theorem State.setW_buf (s : State) (c : Cursor) : (s.setW c).buf = s.buf := rfl
@[simp] theorem State.setW_w (s : State) (c : Cursor) : (s.setW c).w = c := rfl
@[simp] theorem State.setW_u (s : State) (c : Cursor) : (s.setW c).u = s.u := rfl
@[simp] theorem State.setW_ulen (s : State) (c : Cursor) : (s.setW c).ulen = s.ulen := rfl
@[simp] theorem State.setW_fault (s : State) (c : Cursor) : (s.setW c).fault = s.fault := rfl
@[simp] theorem State.setW_cause (s : State) (c : Cursor) : (s.setW c).cause = s.cause := rfl
@[simp] theorem State.setW_answer (s : State) (c : Cursor) : (s.setW c).answer = s.answer := rfl
@[simp] theorem State.setW_pending (s : State) (c : Cursor) : (s.setW c).pending = s.pending := rfl

@[simp] theorem State.setU_capacity (s : State) (c : Cursor) : (s.setU c).capacity = s.capacity := rfl
@[simp] theorem State.setU_buf (s : State) (c : Cursor) : (s.setU c).buf = s.buf := rfl
@[simp] theorem State.setU_w (s : State) (c : Cursor) : (s.setU c).w = s.w := rfl
@[simp] theorem State.setU_u (s : State) (c : Cursor) : (s.setU c).u = c := rfl
@[simp] theorem State.setU_ulen (s : State) (c : Cursor) : (s.setU c).ulen = s.ulen := rfl
@[simp] theorem State.setU_fault (s : State) (c : Cursor) : (s.setU c).fault = s.fault := rfl
@[simp] theorem State.setU_cause (s : State) (c : Cursor) : (s.setU c).cause = s.cause := rfl
@[simp] theorem State.setU_answer (s : State) (c : Cursor) : (s.setU c).answer = s.answer := rfl
@[simp] theorem State.setU_pending (s : State) (c : Cursor) : (s.setU c).pending = s.pending := rfl

@[simp] theorem State.setUlen_capacity (s : State) (n : BitVec 23) : (s.setUlen n).capacity = s.capacity := rfl
@[simp] theorem State.setUlen_buf (s : State) (n : BitVec 23) : (s.setUlen n).buf = s.buf := rfl
@[simp] theorem State.setUlen_w (s : State) (n : BitVec 23) : (s.setUlen n).w = s.w := rfl
@[simp] theorem State.setUlen_u (s : State) (n : BitVec 23) : (s.setUlen n).u = s.u := rfl
@[simp] theorem State.setUlen_ulen (s : State) (n : BitVec 23) : (s.setUlen n).ulen = n := rfl
@[simp] theorem State.setUlen_fault (s : State) (n : BitVec 23) : (s.setUlen n).fault = s.fault := rfl
@[simp] theorem State.setUlen_cause (s : State) (n : BitVec 23) : (s.setUlen n).cause = s.cause := rfl
@[simp] theorem State.setUlen_answer (s : State) (n : BitVec 23) : (s.setUlen n).answer = s.answer := rfl
@[simp] theorem State.setUlen_pending (s : State) (n : BitVec 23) : (s.setUlen n).pending = s.pending := rfl

@[simp] theorem State.setPending_capacity (s : State) (as : List HostAction) : (s.setPending as).capacity = s.capacity := rfl
@[simp] theorem State.setPending_buf (s : State) (as : List HostAction) : (s.setPending as).buf = s.buf := rfl
@[simp] theorem State.setPending_w (s : State) (as : List HostAction) : (s.setPending as).w = s.w := rfl
@[simp] theorem State.setPending_u (s : State) (as : List HostAction) : (s.setPending as).u = s.u := rfl
@[simp] theorem State.setPending_ulen (s : State) (as : List HostAction) : (s.setPending as).ulen = s.ulen := rfl
@[simp] theorem State.setPending_fault (s : State) (as : List HostAction) : (s.setPending as).fault = s.fault := rfl
@[simp] theorem State.setPending_cause (s : State) (as : List HostAction) : (s.setPending as).cause = s.cause := rfl
@[simp] theorem State.setPending_answer (s : State) (as : List HostAction) : (s.setPending as).answer = s.answer := rfl
@[simp] theorem State.setPending_pending (s : State) (as : List HostAction) : (s.setPending as).pending = as := rfl

@[simp] theorem State.respond_capacity (s : State) (r : Resp) (x : Word) : (s.respond r x).capacity = s.capacity := rfl
@[simp] theorem State.respond_buf (s : State) (r : Resp) (x : Word) : (s.respond r x).buf = s.buf := rfl
@[simp] theorem State.respond_w (s : State) (r : Resp) (x : Word) : (s.respond r x).w = s.w := rfl
@[simp] theorem State.respond_u (s : State) (r : Resp) (x : Word) : (s.respond r x).u = s.u := rfl
@[simp] theorem State.respond_ulen (s : State) (r : Resp) (x : Word) : (s.respond r x).ulen = s.ulen := rfl
@[simp] theorem State.respond_fault (s : State) (r : Resp) (x : Word) : (s.respond r x).fault = s.fault := rfl
@[simp] theorem State.respond_cause (s : State) (r : Resp) (x : Word) : (s.respond r x).cause = s.cause := rfl
@[simp] theorem State.respond_answer (s : State) (r : Resp) (x : Word) : (s.respond r x).answer = some ⟨r, x⟩ := rfl
@[simp] theorem State.respond_pending (s : State) (r : Resp) (x : Word) : (s.respond r x).pending = s.pending := rfl

@[simp] theorem State.setFault_capacity (s : State) (c : Cause) : (s.setFault c).capacity = s.capacity := rfl
@[simp] theorem State.setFault_buf (s : State) (c : Cause) : (s.setFault c).buf = s.buf := rfl
@[simp] theorem State.setFault_w (s : State) (c : Cause) : (s.setFault c).w = s.w := rfl
@[simp] theorem State.setFault_u (s : State) (c : Cause) : (s.setFault c).u = s.u := rfl
@[simp] theorem State.setFault_ulen (s : State) (c : Cause) : (s.setFault c).ulen = s.ulen := rfl
@[simp] theorem State.setFault_fault (s : State) (c : Cause) : (s.setFault c).fault = true := rfl
@[simp] theorem State.setFault_cause (s : State) (c : Cause) : (s.setFault c).cause = c := rfl
@[simp] theorem State.setFault_answer (s : State) (c : Cause) : (s.setFault c).answer = s.answer := rfl
@[simp] theorem State.setFault_pending (s : State) (c : Cause) : (s.setFault c).pending = s.pending := rfl

/-- The bits of the buffer are unchanged by an update of another field. -/
theorem State.bitAt_congr {s t : State} (h : t.buf = s.buf) (q : Nat) : t.bitAt q = s.bitAt q := by
  simp only [State.bitAt, h]

@[simp] theorem State.setW_bitAt (s : State) (c : Cursor) (q : Nat) : (s.setW c).bitAt q = s.bitAt q := rfl
@[simp] theorem State.setU_bitAt (s : State) (c : Cursor) (q : Nat) : (s.setU c).bitAt q = s.bitAt q := rfl
@[simp] theorem State.setUlen_bitAt (s : State) (n : BitVec 23) (q : Nat) : (s.setUlen n).bitAt q = s.bitAt q := rfl
@[simp] theorem State.setPending_bitAt (s : State) (as : List HostAction) (q : Nat) : (s.setPending as).bitAt q = s.bitAt q := rfl
@[simp] theorem State.respond_bitAt (s : State) (r : Resp) (x : Word) (q : Nat) : (s.respond r x).bitAt q = s.bitAt q := rfl
@[simp] theorem State.setFault_bitAt (s : State) (c : Cause) (q : Nat) : (s.setFault c).bitAt q = s.bitAt q := rfl

@[simp] theorem State.resetOf_capacity (n : Capacity) : (State.resetOf n).capacity = n := rfl
@[simp] theorem State.resetOf_buf (n : Capacity) : (State.resetOf n).buf = [] := rfl
@[simp] theorem State.resetOf_w (n : Capacity) : (State.resetOf n).w = Cursor.origin := rfl
@[simp] theorem State.resetOf_u (n : Capacity) : (State.resetOf n).u = Cursor.origin := rfl
@[simp] theorem State.resetOf_ulen (n : Capacity) : (State.resetOf n).ulen = 0 := rfl
@[simp] theorem State.resetOf_fault (n : Capacity) : (State.resetOf n).fault = false := rfl
@[simp] theorem State.resetOf_cause (n : Capacity) : (State.resetOf n).cause = .none := rfl
@[simp] theorem State.resetOf_answer (n : Capacity) : (State.resetOf n).answer = none := rfl
@[simp] theorem State.resetOf_pending (n : Capacity) : (State.resetOf n).pending = [] := rfl

end Sys2Proof.Machine
end

