-- ==== Sys2Proof/Laws/Memory.lean ====
section
/-! SUPPORT. The laws of the buffer: read after write, every other byte left alone, the canonical form kept, and equal contents
are equal lists (10_state.md R21; log 9). -/

namespace Sys2Proof.Machine

@[simp] theorem Memory.read_nil (a : Nat) : Memory.read [] a = 0 := rfl

theorem Memory.read_cons (c : Host.Cell) (m : Memory) (a : Nat) :
    Memory.read (c :: m) a = if c.1 = a then c.2 else Memory.read m a := rfl

/-- An address that no entry has reads as an unlisted one. -/
theorem Memory.read_of_not_listed {m : Memory} {a : Nat} (h : ∀ c ∈ m, c.1 ≠ a) : m.read a = Memory.unlisted := by
  induction m with
  | nil => rfl
  | cons c m ih =>
    simp only [List.mem_cons, forall_eq_or_imp] at h
    rw [Memory.read_cons, if_neg h.1, ih h.2]

theorem Memory.read_filter_ne (m : Memory) {a j : Nat} (h : j ≠ a) :
    Memory.read (m.filter (fun c => c.1 != a)) j = m.read j := by
  induction m with
  | nil => rfl
  | cons c m ih =>
    by_cases hc : c.1 = a
    · simp [Memory.read_cons, hc, h.symm, ih]
    · simp [Memory.read_cons, hc, ih]

theorem Memory.read_filter_self (m : Memory) (a : Nat) :
    Memory.read (m.filter (fun c => c.1 != a)) a = Memory.unlisted :=
  Memory.read_of_not_listed (by simp)

theorem Memory.read_insert_ne (m : Memory) (a : Nat) (b : Byte) {j : Nat} (h : j ≠ a) :
    Memory.read (Memory.insert a b m) j = m.read j := by
  induction m with
  | nil => simp [Memory.insert, Memory.read_cons, h.symm]
  | cons c m ih =>
    by_cases hc : a < c.1
    · simp [Memory.insert, hc, Memory.read_cons, h.symm]
    · simp [Memory.insert, hc, Memory.read_cons, ih]

theorem Memory.read_insert_self {m : Memory} {a : Nat} {b : Byte} (h : ∀ c ∈ m, c.1 ≠ a) :
    Memory.read (Memory.insert a b m) a = b := by
  induction m with
  | nil => simp [Memory.insert, Memory.read_cons]
  | cons c m ih =>
    simp only [List.mem_cons, forall_eq_or_imp] at h
    by_cases hc : a < c.1
    · simp [Memory.insert, hc, Memory.read_cons]
    · simp [Memory.insert, hc, Memory.read_cons, h.1, ih h.2]

/-- A byte reads as what was last stored there. -/
@[simp] theorem Memory.read_write_self (m : Memory) (a : Nat) (b : Byte) : (m.write a b).read a = b := by
  unfold Memory.write
  split
  · rename_i h
    rw [Memory.read_filter_self, h]
  · exact Memory.read_insert_self (by simp)

/-- A store leaves every other byte alone. -/
theorem Memory.read_write_ne (m : Memory) {a j : Nat} (b : Byte) (h : j ≠ a) : (m.write a b).read j = m.read j := by
  unfold Memory.write
  split
  · exact Memory.read_filter_ne m h
  · rw [Memory.read_insert_ne _ _ _ h, Memory.read_filter_ne m h]

theorem Memory.read_write (m : Memory) (a j : Nat) (b : Byte) :
    (m.write a b).read j = if j = a then b else m.read j := by
  split
  · rename_i h
    rw [h, Memory.read_write_self]
  · rename_i h
    exact Memory.read_write_ne m b h

theorem Memory.mem_insert {m : Memory} {a : Nat} {b : Byte} {c : Host.Cell} :
    c ∈ Memory.insert a b m ↔ c = (a, b) ∨ c ∈ m := by
  induction m with
  | nil => simp [Memory.insert]
  | cons d m ih =>
    by_cases hd : a < d.1
    · simp [Memory.insert, hd]
    · simp only [Memory.insert, hd, if_false, List.mem_cons, ih]
      tauto

theorem Memory.wf_nil : Memory.wf [] := by simp [Memory.wf]

theorem Memory.wf_filter {m : Memory} (h : m.wf) (p : Host.Cell → Bool) : Memory.wf (m.filter p) :=
  ⟨h.1.filter p, fun c hc => h.2 c (List.mem_filter.1 hc).1⟩

theorem Memory.wf_insert {m : Memory} {a : Nat} {b : Byte} (h : m.wf) (ha : ∀ c ∈ m, c.1 ≠ a)
    (hb : b ≠ Memory.unlisted) : Memory.wf (Memory.insert a b m) := by
  refine ⟨?_, fun c hc => ?_⟩
  · have hp := h.1
    clear h hb
    induction m with
    | nil => simp [Memory.insert]
    | cons d m ih =>
      simp only [List.mem_cons, forall_eq_or_imp] at ha
      rw [List.pairwise_cons] at hp
      by_cases hd : a < d.1
      · simp only [Memory.insert, hd, if_true, List.pairwise_cons, List.mem_cons, forall_eq_or_imp]
        exact ⟨⟨trivial, fun c hc => lt_trans hd (hp.1 c hc)⟩, hp⟩
      · simp only [Memory.insert, hd, if_false, List.pairwise_cons]
        refine ⟨fun c hc => ?_, ih ha.2 hp.2⟩
        rcases Memory.mem_insert.1 hc with rfl | hc
        · have := ha.1
          simp only
          omega
        · exact hp.1 c hc
  · rcases Memory.mem_insert.1 hc with rfl | hc
    · exact hb
    · exact h.2 c hc

/-- A store keeps the canonical form. -/
theorem Memory.wf_write {m : Memory} (h : m.wf) (a : Nat) (b : Byte) : (m.write a b).wf := by
  unfold Memory.write
  split
  · exact Memory.wf_filter h _
  · rename_i hb
    exact Memory.wf_insert (Memory.wf_filter h _) (by simp) hb

/-- A store lists no address but the ones listed before and its own. -/
theorem Memory.mem_write {m : Memory} {a : Nat} {b : Byte} {c : Host.Cell} (h : c ∈ m.write a b) : c.1 = a ∨ c ∈ m := by
  unfold Memory.write at h
  split at h
  · exact .inr (List.mem_filter.1 h).1
  · rcases Memory.mem_insert.1 h with rfl | h
    · exact .inl rfl
    · exact .inr (List.mem_filter.1 h).1

/-- An entry of a canonical buffer is what its address reads as. -/
theorem Memory.read_of_mem {m : Memory} (h : m.wf) {c : Host.Cell} (hc : c ∈ m) : m.read c.1 = c.2 := by
  induction m with
  | nil => simp at hc
  | cons d m ih =>
    have hp := List.pairwise_cons.1 h.1
    rw [Memory.read_cons]
    rcases List.mem_cons.1 hc with rfl | hc
    · simp
    · have : d.1 ≠ c.1 := Nat.ne_of_lt (hp.1 c hc)
      rw [if_neg this]
      exact ih ⟨hp.2, fun e he => h.2 e (List.mem_cons_of_mem _ he)⟩ hc

/-- In a canonical buffer every listed address reads as something else than an unlisted one. -/
theorem Memory.mem_iff_read {m : Memory} (h : m.wf) (c : Host.Cell) :
    c ∈ m ↔ m.read c.1 = c.2 ∧ c.2 ≠ Memory.unlisted := by
  refine ⟨fun hc => ⟨Memory.read_of_mem h hc, h.2 c hc⟩, fun ⟨hr, hn⟩ => ?_⟩
  by_contra hc
  by_cases hl : ∃ d ∈ m, d.1 = c.1
  · obtain ⟨d, hd, hdc⟩ := hl
    have hv := Memory.read_of_mem h hd
    rw [hdc, hr] at hv
    exact hc (Prod.ext hdc hv.symm ▸ hd)
  · exact hn (hr ▸ Memory.read_of_not_listed fun d hd e => hl ⟨d, hd, e⟩)

/-- Canonical buffers with the same bytes are the same list. -/
theorem Memory.eq_of_read_eq {m n : Memory} (hm : m.wf) (hn : n.wf) (h : ∀ a, m.read a = n.read a) : m = n := by
  have key : ∀ c, c ∈ m ↔ c ∈ n := fun c => by rw [Memory.mem_iff_read hm, Memory.mem_iff_read hn, h]
  have hnd : ∀ {l : Memory}, l.wf → l.Nodup := fun hl => hl.1.imp fun hlt heq => by
    rw [heq] at hlt
    exact lt_irrefl _ hlt
  have hp : m.Perm n := (List.perm_ext_iff_of_nodup (hnd hm) (hnd hn)).2 key
  exact hp.eq_of_pairwise (fun a b _ _ hab hba => absurd hab (Nat.lt_asymm hba)) hm.1 hn.1

/-! ## MemRead and MemWrite -/

/-- MemRead answers exactly below N, with the byte there. -/
theorem memRead_eq_ok_iff {s : State} {j : Nat} {b : Byte} :
    memRead s j = .ok b ↔ j < s.capacity.bytes ∧ b = s.buf.read j := by
  unfold memRead
  split <;> simp_all [eq_comm]

theorem memRead_of_lt {s : State} {j : Nat} (h : j < s.capacity.bytes) : memRead s j = .ok (s.buf.read j) := if_pos h

/-- MemWrite answers exactly below N, and changes only the buffer's list. -/
theorem memWrite_eq_ok_iff {s t : State} {j : Nat} {b : Byte} :
    memWrite s j b = .ok t ↔ j < s.capacity.bytes ∧ t = s.setBuf (s.buf.write j b) := by
  unfold memWrite
  split <;> simp_all [eq_comm]

theorem memWrite_of_lt {s : State} {j : Nat} (b : Byte) (h : j < s.capacity.bytes) :
    memWrite s j b = .ok (s.setBuf (s.buf.write j b)) := if_pos h

end Sys2Proof.Machine
end

