-- ==== Sys2Proof/Laws/Cursor.lean ====
section
/-! SUPPORT. The laws of the cursor arithmetic (40_cursor.md R80 to R83, R88). -/

namespace Sys2Proof.Machine

/-- A bit position is below 2^26: the byte index has 23 bits and the bit offset 3. -/
theorem Cursor.pos_lt (c : Cursor) : c.pos < 67108864 := by
  have h1 := c.byte.isLt
  have h2 := c.bit.isLt
  unfold Cursor.pos
  omega

@[simp] theorem Cursor.origin_pos : Cursor.origin.pos = 0 := rfl

theorem Cursor.dec_byte (p : Nat) : (Cursor.dec p).byte.toNat = p / 8 % 8388608 := by
  simp [Cursor.dec]

theorem Cursor.dec_bit (p : Nat) : (Cursor.dec p).bit.toNat = p % 8 := by
  simp [Cursor.dec]

theorem Cursor.pos_dec (p : Nat) : (Cursor.dec p).pos = p % 67108864 := by
  rw [Cursor.pos, Cursor.dec_byte, Cursor.dec_bit]
  omega

theorem Cursor.pos_dec_of_lt {p : Nat} (h : p < 67108864) : (Cursor.dec p).pos = p := by
  rw [Cursor.pos_dec, Nat.mod_eq_of_lt h]

/-- A cursor is determined by its two parts as numbers. -/
theorem Cursor.ext_toNat {c d : Cursor} (h1 : c.byte.toNat = d.byte.toNat) (h2 : c.bit.toNat = d.bit.toNat) : c = d := by
  cases c
  cases d
  simp only [Cursor.mk.injEq]
  exact ⟨BitVec.eq_of_toNat_eq h1, BitVec.eq_of_toNat_eq h2⟩

theorem Cursor.pos_byte (c : Cursor) : c.byte.toNat = c.pos / 8 := by
  have := c.bit.isLt
  unfold Cursor.pos
  omega

theorem Cursor.pos_bit (c : Cursor) : c.bit.toNat = c.pos % 8 := by
  have := c.bit.isLt
  unfold Cursor.pos
  omega

/-- Cursors at the same bit position are equal. -/
theorem Cursor.eq_of_pos_eq {c d : Cursor} (h : c.pos = d.pos) : c = d :=
  Cursor.ext_toNat (by rw [Cursor.pos_byte, Cursor.pos_byte, h]) (by rw [Cursor.pos_bit, Cursor.pos_bit, h])

theorem Cursor.pos_adv (c : Cursor) (k : Nat) : (c.adv k).pos = (c.pos + k) % 67108864 := Cursor.pos_dec _

theorem Cursor.pos_adv_of_lt {c : Cursor} {k : Nat} (h : c.pos + k < 67108864) : (c.adv k).pos = c.pos + k :=
  Cursor.pos_dec_of_lt h

@[simp] theorem Cursor.adv_zero (c : Cursor) : c.adv 0 = c :=
  Cursor.eq_of_pos_eq (by rw [Cursor.pos_adv_of_lt] <;> have := c.pos_lt <;> omega)

/-- Two advances are one (R82, R83). -/
theorem Cursor.adv_adv (c : Cursor) (j k : Nat) : (c.adv j).adv k = c.adv (j + k) :=
  Cursor.eq_of_pos_eq (by rw [Cursor.pos_adv, Cursor.pos_adv, Cursor.pos_adv]; omega)

/-- The chunk loops' cursor step is an advance, when the chunk stays in its byte (R83). -/
theorem Cursor.bump_eq_adv {c : Cursor} {k : Nat} (h : k ≤ 8 - c.bit.toNat) : c.bump k = c.adv k := by
  have hb := c.bit.isLt
  have hB := c.byte.isLt
  have hp : c.pos = 8 * c.byte.toNat + c.bit.toNat := rfl
  unfold Cursor.bump Cursor.adv
  split
  · rename_i h8
    refine Cursor.ext_toNat ?_ ?_
    · rw [Cursor.dec_byte, hp]
      show (c.byte + 1#23).toNat = _
      rw [BitVec.toNat_add]
      show (c.byte.toNat + 1) % 8388608 = _
      omega
    · rw [Cursor.dec_bit, hp]
      show 0 = _
      omega
  · rename_i h8
    refine Cursor.ext_toNat ?_ ?_
    · rw [Cursor.dec_byte, hp]
      show c.byte.toNat = _
      omega
    · rw [Cursor.dec_bit, hp, BitVec.toNat_ofNat]
      omega

/-- The bits of MASK(k): the low k are set (R14, R88). -/
theorem mask_getLsbD (k i : Nat) : (mask k).getLsbD i = (decide (i < 64) && decide (i < k)) := by
  rw [mask, BitVec.getLsbD_ofNat, Nat.testBit_two_pow_sub_one]

/-- Every extent in bounds ends below the highest bit position a cursor can hold (R7, R86). -/
theorem State.inBounds_lt {s : State} {p n : Nat} (h : s.inBounds p n) (hp : p < 67108864) : p + n < 67108864 := by
  have := s.capacity.le_max
  unfold State.inBounds at h
  omega

end Sys2Proof.Machine
end

