-- ==== Sys2Proof/Laws/Bits.lean ====
section
/-! SUPPORT. What the two primitives do, once and for all: WriteBits (40_cursor.md R89, R91) and ReadBits (R90, R92), with the
loops of PNEW (41_packer.md R100). The loops are unfolded here and nowhere else. -/

namespace Sys2Proof.Machine

/-- A bit of the buffer after one byte is stored. -/
theorem State.setBuf_write_bitAt (s : State) (j : Nat) (b : Byte) (q : Nat) :
    (s.setBuf (s.buf.write j b)).bitAt q = if q / 8 = j then b.getLsbD (q % 8) else s.bitAt q := by
  simp only [State.bitAt, State.setBuf_buf, Memory.read_write]
  split <;> rfl

/-- The byte a chunk write stores (R89): the old byte, with the chunk's bits OR-ed in from offset `off` up. -/
theorem chunk_getLsbD (old : Byte) (val : Word) {off k i : Nat} (hk : off + k ≤ 8) (hi : i < 8) :
    (old ||| ((val &&& mask k) <<< off).setWidth 8).getLsbD i
      = (old.getLsbD i || (decide (off ≤ i) && decide (i < off + k) && val.getLsbD (i - off))) := by
  simp only [BitVec.getLsbD_or, BitVec.getLsbD_setWidth, BitVec.getLsbD_shiftLeft, BitVec.getLsbD_and, mask_getLsbD]
  by_cases h1 : off ≤ i
  · have e1 : (i < off) = False := by simp; omega
    have e2 : (i - off < k) = (i < off + k) := by simp; omega
    have e3 : (i - off < 64) = True := by simp; omega
    have e4 : (i < 64) = True := by simp; omega
    simp [h1, hi, e1, e2, e3, e4, Bool.and_comm]
  · have e1 : (i < off) = True := by simp; omega
    simp [h1, e1]

/-- The bits an operation of n bits at bit position P writes: those of `v`, from position P up (R91). -/
def writtenBit (v : Word) (p n q : Nat) : Bool := decide (p ≤ q) && decide (q < p + n) && v.getLsbD (q - p)

/-- The loop of WriteBits does what R91 says, from any turn on. -/
theorem writeChunks_spec (fuel : Nat) : ∀ (val : Word) (rem : Nat) (s : State), rem ≤ fuel → s.inBounds s.w.pos rem →
    ∃ m : Memory, writeChunks fuel val rem s = .ok ((s.setBuf m).setW (s.w.adv rem)) ∧
      (∀ q, (s.setBuf m).bitAt q = (s.bitAt q || writtenBit val s.w.pos rem q)) ∧
      (s.buf.wf → m.wf) ∧ (∀ c ∈ m, c.1 < s.capacity.bytes ∨ c ∈ s.buf) := by
  have done : ∀ (val : Word) (s : State) (r : Except Fault State), r = .ok s →
      ∃ m : Memory, r = .ok ((s.setBuf m).setW (s.w.adv 0)) ∧
        (∀ q, (s.setBuf m).bitAt q = (s.bitAt q || writtenBit val s.w.pos 0 q)) ∧
        (s.buf.wf → m.wf) ∧ (∀ c ∈ m, c.1 < s.capacity.bytes ∨ c ∈ s.buf) := fun val s r h => by
    refine ⟨s.buf, by rw [h, Cursor.adv_zero]; rfl, fun q => ?_, id, fun c hc => .inr hc⟩
    have : (decide (s.w.pos ≤ q) && decide (q < s.w.pos + 0)) = false := by simp
    simp only [writtenBit, this, Bool.false_and, Bool.or_false]
    rfl
  induction fuel with
  | zero =>
    intro val rem s hf _
    obtain rfl : rem = 0 := by omega
    exact done val s _ rfl
  | succ fuel ih =>
    intro val rem s hf hb
    by_cases h0 : rem = 0
    · subst h0
      exact done val s _ (by simp [writeChunks])
    · have hlt := s.inBounds_lt hb s.w.pos_lt
      have hbit := s.w.bit.isLt
      have hpb := s.w.pos_byte
      have hpo := s.w.pos_bit
      obtain ⟨k, hk⟩ : ∃ k, k = min rem (8 - s.w.bit.toNat) := ⟨_, rfl⟩
      have hk8 : s.w.bit.toNat + k ≤ 8 := by omega
      have hkr : k ≤ rem := by omega
      have hN : s.w.byte.toNat < s.capacity.bytes := by
        unfold State.inBounds at hb
        omega
      have hpos : (s.w.adv k).pos = s.w.pos + k := Cursor.pos_adv_of_lt (by omega)
      obtain ⟨old, hold⟩ : ∃ old, old = s.buf.read s.w.byte.toNat := ⟨_, rfl⟩
      obtain ⟨b, hbdef⟩ : ∃ b : Byte, b = old ||| ((val &&& mask k) <<< s.w.bit.toNat).setWidth 8 := ⟨_, rfl⟩
      obtain ⟨s₁, hs₁⟩ : ∃ s₁, s₁ = (s.setBuf (s.buf.write s.w.byte.toNat b)).setW (s.w.adv k) := ⟨_, rfl⟩
      have hstep : writeChunks (fuel + 1) val rem s = writeChunks fuel (val >>> k) (rem - k) s₁ := by
        simp only [writeChunks, h0, if_false, memRead_of_lt hN, memWrite_of_lt _ hN, ← hk, ← hold, ← hbdef,
          State.setBuf_w, hs₁, Cursor.bump_eq_adv (show k ≤ 8 - s.w.bit.toNat by omega)]
      have hin : s₁.inBounds s₁.w.pos (rem - k) := by
        unfold State.inBounds at hb ⊢
        simp only [hs₁, State.setW_w, State.setW_capacity, State.setBuf_capacity, hpos]
        omega
      obtain ⟨m, hm, hbits, hwf, hmem⟩ := ih (val >>> k) (rem - k) s₁ (by omega) hin
      refine ⟨m, ?_, fun q => ?_, fun h => hwf ?_, fun c hc => ?_⟩
      · rw [hstep, hm]
        have : (s.w.adv k).adv (rem - k) = s.w.adv rem := by
          rw [Cursor.adv_adv, Nat.add_sub_cancel' hkr]
        simp only [hs₁, State.setW_w, this]
        rfl
      · have e : (s.setBuf m).bitAt q = (s₁.setBuf m).bitAt q := rfl
        rw [e, hbits q, hs₁, State.setW_bitAt, State.setBuf_write_bitAt, State.setW_w, hpos]
        have hw : writtenBit (val >>> k) (s.w.pos + k) (rem - k) q
            = (decide (s.w.pos + k ≤ q) && decide (q < s.w.pos + rem) && val.getLsbD (q - s.w.pos)) := by
          unfold writtenBit
          by_cases h : s.w.pos + k ≤ q
          · have e1 : (q < s.w.pos + k + (rem - k)) = (q < s.w.pos + rem) := by simp; omega
            have e2 : k + (q - (s.w.pos + k)) = q - s.w.pos := by omega
            rw [BitVec.getLsbD_ushiftRight, e2]
            simp only [e1]
          · simp [h]
        rw [hw]
        by_cases hq : q / 8 = s.w.byte.toNat
        · rw [if_pos hq, hbdef, chunk_getLsbD old val hk8 (Nat.mod_lt _ (by omega))]
          have e0 : old.getLsbD (q % 8) = s.bitAt q := by rw [State.bitAt, hq, hold]
          have e1 : (s.w.bit.toNat ≤ q % 8) = (s.w.pos ≤ q) := by simp; omega
          have e2 : (q % 8 < s.w.bit.toNat + k) = (q < s.w.pos + k) := by simp; omega
          rw [e0]
          simp only [e1, e2, writtenBit, Bool.or_assoc]
          congr 1
          by_cases h1 : s.w.pos ≤ q
          · have e3 : q % 8 - s.w.bit.toNat = q - s.w.pos := by omega
            rw [e3]
            by_cases h2 : q < s.w.pos + k
            · have e4 : (s.w.pos + k ≤ q) = False := by simp; omega
              have e5 : (q < s.w.pos + rem) = True := by simp; omega
              simp [h1, h2, e4, e5]
            · have e4 : (s.w.pos + k ≤ q) = True := by simp; omega
              simp [h1, h2, e4]
          · have e4 : (s.w.pos + k ≤ q) = False := by simp; omega
            simp [h1, e4]
        · rw [if_neg hq]
          congr 1
          unfold writtenBit
          have e1 : (s.w.pos + k ≤ q) = (s.w.pos ≤ q) := by simp; omega
          simp only [e1]
      · rw [hs₁]
        exact Memory.wf_write h _ _
      · rcases hmem c hc with h | h
        · rw [hs₁] at h
          exact .inl h
        · rw [hs₁] at h
          rcases Memory.mem_write h with h | h
          · exact .inl (h ▸ hN)
          · exact .inr h

/-- WriteBits (R89, R91). In bounds it answers; it moves W by n bits, ORs the low n bits of v into the buffer from bit position
pos(W) up, leaves every other bit and every other field alone, and keeps the buffer's form. -/
theorem writeBits_spec {v : Word} {n : Nat} {s : State} (h : s.inBounds s.w.pos n) :
    ∃ m : Memory, writeBits v n s = .ok ((s.setBuf m).setW (s.w.adv n)) ∧
      (∀ q, (s.setBuf m).bitAt q = (s.bitAt q || writtenBit v s.w.pos n q)) ∧
      (s.buf.wf → m.wf) ∧ (∀ c ∈ m, c.1 < s.capacity.bytes ∨ c ∈ s.buf) :=
  writeChunks_spec n v n s le_rfl h

/-- The loop of ReadBits does what R92 says, from any turn on. -/
theorem readChunks_spec (fuel : Nat) : ∀ (acc : Word) (shift rem : Nat) (s : State), rem ≤ fuel → shift + rem ≤ 64 →
    s.inBounds s.u.pos rem →
    ∃ r : Word, readChunks fuel acc shift rem s = .ok (r, s.setU (s.u.adv rem)) ∧
      ∀ i, r.getLsbD i
        = (acc.getLsbD i || (decide (shift ≤ i) && decide (i < shift + rem) && s.bitAt (s.u.pos + (i - shift)))) := by
  have done : ∀ (acc : Word) (shift : Nat) (s : State) (x : Except Fault (Word × State)), x = .ok (acc, s) →
      ∃ r : Word, x = .ok (r, s.setU (s.u.adv 0)) ∧
        ∀ i, r.getLsbD i
          = (acc.getLsbD i || (decide (shift ≤ i) && decide (i < shift + 0) && s.bitAt (s.u.pos + (i - shift)))) :=
    fun acc shift s x h => by
      refine ⟨acc, by rw [h, Cursor.adv_zero]; rfl, fun i => ?_⟩
      have : (decide (shift ≤ i) && decide (i < shift + 0)) = false := by simp
      simp only [this, Bool.false_and, Bool.or_false]
  induction fuel with
  | zero =>
    intro acc shift rem s hf _ _
    obtain rfl : rem = 0 := by omega
    exact done acc shift s _ rfl
  | succ fuel ih =>
    intro acc shift rem s hf h64 hb
    by_cases h0 : rem = 0
    · subst h0
      exact done acc shift s _ (by simp [readChunks])
    · have hlt := s.inBounds_lt hb s.u.pos_lt
      have hbit := s.u.bit.isLt
      have hpb := s.u.pos_byte
      have hpo := s.u.pos_bit
      obtain ⟨k, hk⟩ : ∃ k, k = min rem (8 - s.u.bit.toNat) := ⟨_, rfl⟩
      have hN : s.u.byte.toNat < s.capacity.bytes := by
        unfold State.inBounds at hb
        omega
      have hpos : (s.u.adv k).pos = s.u.pos + k := Cursor.pos_adv_of_lt (by omega)
      obtain ⟨chunk, hchunk⟩ : ∃ chunk : Word,
        chunk = ((s.buf.read s.u.byte.toNat).setWidth 64 >>> s.u.bit.toNat) &&& mask k := ⟨_, rfl⟩
      have hstep : readChunks (fuel + 1) acc shift rem s
          = readChunks fuel (acc ||| (chunk <<< shift)) (shift + k) (rem - k) (s.setU (s.u.adv k)) := by
        simp only [readChunks, h0, if_false, memRead_of_lt hN, ← hk, ← hchunk,
          Cursor.bump_eq_adv (show k ≤ 8 - s.u.bit.toNat by omega)]
      have hin : (s.setU (s.u.adv k)).inBounds (s.setU (s.u.adv k)).u.pos (rem - k) := by
        unfold State.inBounds at hb ⊢
        simp only [State.setU_u, State.setU_capacity, hpos]
        omega
      obtain ⟨r, hr, hbits⟩ := ih (acc ||| (chunk <<< shift)) (shift + k) (rem - k) (s.setU (s.u.adv k)) (by omega)
        (by omega) hin
      refine ⟨r, ?_, fun i => ?_⟩
      · rw [hstep, hr]
        have : (s.u.adv k).adv (rem - k) = s.u.adv rem := by
          rw [Cursor.adv_adv, Nat.add_sub_cancel' (by omega)]
        simp only [State.setU_u, this]
        rfl
      · rw [hbits i, State.setU_u, State.setU_bitAt, hpos, BitVec.getLsbD_or, BitVec.getLsbD_shiftLeft, Bool.or_assoc]
        congr 1
        by_cases h1 : shift ≤ i
        · have e1 : (i < shift) = False := by simp; omega
          by_cases h2 : i < shift + k
          · have e2 : (shift + k ≤ i) = False := by simp; omega
            have e3 : (i < shift + rem) = True := by simp; omega
            have e4 : (i - shift < 64) = True := by simp; omega
            have e5 : (i - shift < k) = True := by simp; omega
            have e6 : (s.u.pos + (i - shift)) / 8 = s.u.byte.toNat := by omega
            have e7 : (s.u.pos + (i - shift)) % 8 = s.u.bit.toNat + (i - shift) := by omega
            have e8 : (s.u.bit.toNat + (i - shift) < 64) = True := by simp; omega
            have e9 : (i < 64) = True := by simp; omega
            simp only [hchunk, BitVec.getLsbD_and, BitVec.getLsbD_ushiftRight, BitVec.getLsbD_setWidth, mask_getLsbD,
              State.bitAt, e1, e2, e3, e4, e5, e6, e7, e8, e9, h1, decide_true, decide_false, Bool.true_and,
              Bool.and_true, Bool.not_false, Bool.false_and, Bool.or_false]
          · have e2 : (shift + k ≤ i) = True := by simp; omega
            have e3 : (i < shift + k + (rem - k)) = (i < shift + rem) := by simp; omega
            have e4 : (i - shift < k) = False := by simp; omega
            have e5 : s.u.pos + k + (i - (shift + k)) = s.u.pos + (i - shift) := by omega
            simp [hchunk, mask_getLsbD, e2, e3, e4, e5, h1]
        · have e1 : (i < shift) = True := by simp; omega
          have e2 : (shift + k ≤ i) = False := by simp; omega
          simp [e1, e2, h1]

/-- ReadBits (R90, R92). In bounds it answers; bit i of the result is the buffer's bit pos(U) + i for i < n and 0 above; it
moves U by n bits and leaves every other field alone. -/
theorem readBits_spec {n : Nat} {s : State} (hn : n ≤ 64) (h : s.inBounds s.u.pos n) :
    ∃ r : Word, readBits n s = .ok (r, s.setU (s.u.adv n)) ∧
      ∀ i, r.getLsbD i = (decide (i < n) && s.bitAt (s.u.pos + i)) := by
  obtain ⟨r, hr, hb⟩ := readChunks_spec n 0 0 n s le_rfl (by omega) h
  exact ⟨r, hr, fun i => by simpa using hb i⟩

/-- PNEW's loop (R100): below N it answers; the bytes from `j` on become 0, every other byte and every other field stays, and
the buffer's form is kept. -/
theorem clearFrom_spec (count : Nat) : ∀ (j : Nat) (s : State), j + count ≤ s.capacity.bytes →
    ∃ m : Memory, clearFrom count j s = .ok (s.setBuf m) ∧
      (∀ a, m.read a = if j ≤ a ∧ a < j + count then 0 else s.buf.read a) ∧
      (s.buf.wf → m.wf) ∧ (∀ c ∈ m, c.1 < s.capacity.bytes ∨ c ∈ s.buf) := by
  induction count with
  | zero =>
    intro j s _
    refine ⟨s.buf, rfl, fun a => ?_, id, fun c hc => .inr hc⟩
    rw [if_neg (by omega)]
  | succ count ih =>
    intro j s h
    obtain ⟨m, hm, hread, hwf, hmem⟩ := ih (j + 1) (s.setBuf (s.buf.write j 0)) (by simp only [State.setBuf_capacity]; omega)
    refine ⟨m, ?_, fun a => ?_, fun hw => hwf (Memory.wf_write (m := s.buf) hw j 0), fun c hc => ?_⟩
    · simp only [clearFrom, memWrite_of_lt _ (show j < s.capacity.bytes by omega)]
      exact hm
    · rw [hread a, State.setBuf_buf, Memory.read_write]
      split_ifs <;> first | rfl | omega
    · rcases hmem c hc with h' | h'
      · exact .inl h'
      · rcases Memory.mem_write (m := s.buf) (a := j) (b := 0) h' with h'' | h''
        · exact .inl (by omega)
        · exact .inr h''

/-! ## One chunk after the other -/

@[simp] theorem writeAlong_nil (v : Word) (s : State) : writeAlong [] v s = .ok s := rfl
@[simp] theorem readAlong_nil (s : State) : readAlong [] s = .ok 0 := rfl

/-- MemWrite neither reads nor changes W. -/
theorem memWrite_setW (s : State) (c : Cursor) (j : Nat) (b : Byte) :
    memWrite (s.setW c) j b = (memWrite s j b).map fun t => t.setW c := by
  by_cases h : j < s.capacity.bytes
  · rw [memWrite_of_lt b h]
    exact memWrite_of_lt (s := s.setW c) b h
  · rw [show memWrite s j b = .error .noSuchByte from if_neg h]
    exact if_neg (c := j < (s.setW c).capacity.bytes) h

/-- The chunks' writes neither read nor change W. -/
theorem writeAlong_setW (cs : List Chunk) : ∀ (v : Word) (s : State) (c : Cursor),
    writeAlong cs v (s.setW c) = (writeAlong cs v s).map fun t => t.setW c := by
  induction cs with
  | nil => intro v s c; rfl
  | cons d cs ih =>
    intro v s c
    have hr : memRead (s.setW c) d.byte = memRead s d.byte := rfl
    simp only [writeAlong, hr, memWrite_setW]
    cases memRead s d.byte with
    | error f => rfl
    | ok old =>
      simp only
      cases memWrite s d.byte (old ||| ((v &&& mask d.len) <<< d.offset).setWidth 8) with
      | error f => rfl
      | ok s' => exact ih (v >>> d.len) s' c

/-- The chunks' reads do not read U. -/
theorem readAlong_setU (cs : List Chunk) (s : State) (c : Cursor) : readAlong cs (s.setU c) = readAlong cs s := by
  induction cs with
  | nil => rfl
  | cons d cs ih =>
    simp only [readAlong, ih]
    rfl

end Sys2Proof.Machine
end

