-- ==== Sys2Proof/Laws/Decode.lean ====
section
/-! SUPPORT. The fields of a command word put together from its fields (30_encoding.md R61). -/

namespace Sys2Proof

/-- The bits of a command word, field by field (R61). -/
theorem commandWord_getLsbD (op : BitVec 4) (n : BitVec 6) (a : BitVec 22) (i : Nat) :
    (commandWord op n a).getLsbD i
      = if i < 4 then op.getLsbD i else if i - 4 < 6 then n.getLsbD (i - 4) else a.getLsbD (i - 4 - 6) := by
  have h : (a ++ n ++ op).getLsbD i = _ := BitVec.getLsbD_append
  have h' : (a ++ n).getLsbD (i - 4) = _ := BitVec.getLsbD_append
  rw [h'] at h
  exact h

theorem opField_commandWord (op : BitVec 4) (n : BitVec 6) (a : BitVec 22) : opField (commandWord op n a) = op := by
  refine BitVec.eq_of_getLsbD_eq fun i hi => ?_
  simp only [opField, BitVec.getLsbD_extractLsb', commandWord_getLsbD, Nat.zero_add, hi, if_true, decide_true,
    Bool.true_and]

theorem nbitsField_commandWord (op : BitVec 4) (n : BitVec 6) (a : BitVec 22) :
    nbitsField (commandWord op n a) = n := by
  refine BitVec.eq_of_getLsbD_eq fun i hi => ?_
  have h : ¬ 4 + i < 4 := by omega
  simp only [nbitsField, BitVec.getLsbD_extractLsb', commandWord_getLsbD, h, hi, if_true, if_false, decide_true,
    Bool.true_and, Nat.add_sub_cancel_left]

theorem addrField_commandWord (op : BitVec 4) (n : BitVec 6) (a : BitVec 22) :
    addrField (commandWord op n a) = a := by
  refine BitVec.eq_of_getLsbD_eq fun i hi => ?_
  have h : ¬ 10 + i < 4 := by omega
  have h' : ¬ 10 + i - 4 < 6 := by omega
  have h'' : 10 + i - 4 - 6 = i := by omega
  simp only [addrField, BitVec.getLsbD_extractLsb', commandWord_getLsbD, h, h', h'', hi, if_false, decide_true,
    Bool.true_and]

/-- A command word is its three fields (R61). -/
theorem commandWord_fields (c : CmdWord) : commandWord (opField c) (nbitsField c) (addrField c) = c := by
  refine BitVec.eq_of_getLsbD_eq fun i hi => ?_
  simp only [opField, nbitsField, addrField, commandWord_getLsbD, BitVec.getLsbD_extractLsb']
  by_cases h : i < 4
  · simp [h]
  · by_cases h' : i - 4 < 6
    · have e : 4 + (i - 4) = i := by omega
      simp [h, h', e]
    · have e : 10 + (i - 4 - 6) = i := by omega
      have e' : i - 4 - 6 < 22 := by omega
      simp [h, h', e, e']

end Sys2Proof
end

