-- ==== Sys2Proof/Laws/Outcomes.lean ====
section
/-! SUPPORT. What each shared operation of a command can do, one lemma each: raising a fault, the gate, a bit command's checks,
the signed primitives, reset and the host's actions. Proofs about a command cite these and do not unfold the operations. -/

namespace Sys2Proof.Machine

@[simp] theorem raise_eq (c : Cause) (s : State) : raise c s = .next ((s.setFault c).respond .faulted 0) := rfl

@[simp] theorem complete_ok (x : Word) (s : State) : complete (.ok (x, s)) = .next (s.respond .ok x) := rfl

@[simp] theorem complete_error (f : Fault) : complete (.error f) = .fault f := rfl

@[simp] theorem query_eq (s : State) (x : Word) : query s x = .next (s.respond .ok x) := rfl

/-- A command that is no query is REJECTED while FAULT = 1 (R174). -/
theorem gated_of_fault {s : State} (h : s.fault = true) (r : Result) : gated s r = .next (s.respond .rejected 0) := by
  rw [gated, if_pos h]

/-- A command runs while FAULT = 0 (R174). -/
theorem gated_of_ready {s : State} (h : s.fault = false) (r : Result) : gated s r = r := by
  rw [gated, if_neg (by simp [h])]

/-- What a gated command can answer (R174). -/
theorem gated_eq_next_iff {s t : State} {r : Result} :
    gated s r = .next t ↔
      (s.fault = true ∧ t = s.respond .rejected 0) ∨ (s.fault = false ∧ r = .next t) := by
  cases h : s.fault
  · simp [gated_of_ready h]
  · simp [gated_of_fault h, eq_comm]

/-- A word that does not decode: REJECTED while FAULT = 1 (R174). -/
theorem badCommand_of_fault {s : State} (h : s.fault = true) : badCommand s = .next (s.respond .rejected 0) :=
  gated_of_fault h _

/-- A word that does not decode: BAD_CMD while FAULT = 0 (R170, R174). -/
theorem badCommand_of_ready {s : State} (h : s.fault = false) :
    badCommand s = .next ((s.setFault .badCmd).respond .faulted 0) :=
  gated_of_ready h _

/-- A bit command with NBITS above 57 raises BAD_WIDTH, whatever its extent (R175). -/
theorem bitCommand_badWidth {o : Cause} {p n k : Nat} {s : State} {e : Except Fault (Word × State)} (h : 57 < n) :
    bitCommand o p n k s e = raise .badWidth s := by
  rw [bitCommand, if_pos (by exact h)]

/-- A bit command out of bounds raises its overflow (R44, R175). -/
theorem bitCommand_overflow {o : Cause} {p n k : Nat} {s : State} {e : Except Fault (Word × State)} (hn : n ≤ 57)
    (h : ¬ s.inBounds p k) : bitCommand o p n k s e = raise o s := by
  rw [bitCommand, if_neg (by show ¬ 57 < n; omega), if_neg h]

/-- A bit command that passes both checks has its effect. -/
theorem bitCommand_ok {o : Cause} {p n k : Nat} {s : State} {e : Except Fault (Word × State)} (hn : n ≤ 57)
    (h : s.inBounds p k) : bitCommand o p n k s e = complete e := by
  rw [bitCommand, if_neg (by show ¬ 57 < n; omega), if_pos h]

/-- The three ways of a bit command (R175). -/
theorem bitCommand_cases (o : Cause) (p n k : Nat) (s : State) (e : Except Fault (Word × State)) :
    (57 < n ∧ bitCommand o p n k s e = raise .badWidth s) ∨
    (n ≤ 57 ∧ ¬ s.inBounds p k ∧ bitCommand o p n k s e = raise o s) ∨
    (n ≤ 57 ∧ s.inBounds p k ∧ bitCommand o p n k s e = complete e) := by
  by_cases hn : 57 < n
  · exact .inl ⟨hn, bitCommand_badWidth hn⟩
  · by_cases h : s.inBounds p k
    · exact .inr (.inr ⟨by omega, h, bitCommand_ok (by omega) h⟩)
    · exact .inr (.inl ⟨by omega, h, bitCommand_overflow (by omega) h⟩)

/-! ## The signed primitives -/

/-- The sign bit written for x has one bit: x < 0 (R93). -/
theorem signBit_getLsbD (x : Int) (i : Nat) : (signBit x).getLsbD i = (decide (i = 0) && decide (x < 0)) := by
  unfold signBit
  split
  · rename_i h
    simp [h]
  · rename_i h
    simp [h]

/-- ADDS's effect (R106). In bounds it answers; it moves W by w + 1 bits, ORs the sign at pos(W) and the low w magnitude bits
from pos(W) + 1 up, leaves every other bit and field alone, and keeps the buffer's form. -/
theorem writeSigned_spec {x : Int} {w : Nat} {s : State} (h : s.inBounds s.w.pos (w + 1)) :
    ∃ m : Memory, writeSigned x w s = .ok ((s.setBuf m).setW (s.w.adv (w + 1))) ∧
      (∀ q, (s.setBuf m).bitAt q
        = (s.bitAt q || (decide (q = s.w.pos) && decide (x < 0)) || writtenBit (magnitude x) (s.w.pos + 1) w q)) ∧
      (s.buf.wf → m.wf) ∧ (∀ c ∈ m, c.1 < s.capacity.bytes ∨ c ∈ s.buf) := by
  have hlt := s.inBounds_lt h s.w.pos_lt
  have hpos : (s.w.adv 1).pos = s.w.pos + 1 := Cursor.pos_adv_of_lt (by omega)
  have h1 : s.inBounds s.w.pos 1 := by
    unfold State.inBounds at h ⊢
    omega
  obtain ⟨m₁, e₁, b₁, wf₁, mem₁⟩ := writeBits_spec (v := signBit x) h1
  have h2 : ((s.setBuf m₁).setW (s.w.adv 1)).inBounds ((s.setBuf m₁).setW (s.w.adv 1)).w.pos w := by
    unfold State.inBounds at h ⊢
    simp only [State.setW_w, State.setW_capacity, State.setBuf_capacity, hpos]
    omega
  obtain ⟨m, e₂, b₂, wf₂, mem₂⟩ := writeBits_spec (v := magnitude x) h2
  refine ⟨m, ?_, fun q => ?_, fun hw => wf₂ (wf₁ hw), fun c hc => ?_⟩
  · rw [writeSigned, e₁]
    show writeBits _ _ _ = _
    rw [e₂, State.setW_w, Cursor.adv_adv, Nat.add_comm 1 w]
    rfl
  · have e : (s.setBuf m).bitAt q = (((s.setBuf m₁).setW (s.w.adv 1)).setBuf m).bitAt q := rfl
    rw [e, b₂ q, State.setW_bitAt, b₁ q, State.setW_w, hpos]
    congr 2
    unfold writtenBit
    rw [signBit_getLsbD]
    by_cases hq : q = s.w.pos
    · simp [hq]
    · by_cases h3 : s.w.pos ≤ q
      · have e1 : (q < s.w.pos + 1) = False := by simp; omega
        simp [hq, e1]
      · simp [hq, h3]
  · rcases mem₂ c hc with h' | h'
    · exact .inl h'
    · exact mem₁ c h'

/-- READS's effect (R125, R126). In bounds it answers; the sign is the bit at pos(U), the magnitude the w bits from pos(U) + 1
up; the result is the integer in two's complement; it moves U by w + 1 bits and leaves every other field alone. -/
theorem readSigned_spec {w : Nat} {s : State} (hw : w ≤ 64) (h : s.inBounds s.u.pos (w + 1)) :
    ∃ m : Word, (∀ i, m.getLsbD i = (decide (i < w) && s.bitAt (s.u.pos + 1 + i))) ∧
      readSigned w s = .ok (portWord (if s.bitAt s.u.pos then -(m.toNat : Int) else m.toNat), s.setU (s.u.adv (w + 1))) := by
  have hlt := s.inBounds_lt h s.u.pos_lt
  have hpos : (s.u.adv 1).pos = s.u.pos + 1 := Cursor.pos_adv_of_lt (by omega)
  have h1 : s.inBounds s.u.pos 1 := by
    unfold State.inBounds at h ⊢
    omega
  obtain ⟨r₁, e₁, b₁⟩ := readBits_spec (by omega) h1
  have h2 : (s.setU (s.u.adv 1)).inBounds (s.setU (s.u.adv 1)).u.pos w := by
    unfold State.inBounds at h ⊢
    simp only [State.setU_u, State.setU_capacity, hpos]
    omega
  obtain ⟨m, e₂, b₂⟩ := readBits_spec hw h2
  refine ⟨m, fun i => ?_, ?_⟩
  · rw [b₂ i, State.setU_bitAt, State.setU_u, hpos]
  · rw [readSigned, e₁]
    show Except.map _ (readBits w (s.setU (s.u.adv 1))) = _
    rw [e₂, State.setU_u, Cursor.adv_adv, Nat.add_comm 1 w]
    have hs : (r₁ = 1) ↔ s.bitAt s.u.pos = true := by
      have h0 : r₁.getLsbD 0 = s.bitAt s.u.pos := by simpa using b₁ 0
      rw [← h0]
      constructor
      · rintro rfl
        decide
      · intro ht
        refine BitVec.eq_of_getLsbD_eq fun i _ => ?_
        cases i with
        | zero =>
          rw [ht]
          rfl
        | succ i =>
          rw [b₁ (i + 1)]
          simp
    show Except.ok (portWord (signMagnitude r₁ m), _) = _
    unfold signMagnitude
    by_cases hb : s.bitAt s.u.pos = true
    · rw [if_pos (hs.2 hb), if_pos hb]
      rfl
    · rw [if_neg (fun h => hb (hs.1 h)), if_neg hb]
      rfl

/-! ## Reset and the host's actions -/

/-- Reset is the reset state of the same capacity; the host's actions stay (R31, R190). -/
theorem hardReset_eq (s : State) : hardReset s = (State.resetOf s.capacity).setPending s.pending := rfl

/-- With nothing pending a step changes nothing (log 2). -/
theorem step_idle {s : State} (h : s.pending = []) : step s = .next s := by
  simp [step, takeAction, h]

/-- A step serves the host's next action, the ports having moved on (R60, R195). -/
theorem step_action {s : State} {a : HostAction} {as : List HostAction} (h : s.pending = a :: as) :
    step s = serve a (s.setPending as) := by
  simp [step, takeAction, h]

@[simp] theorem serve_reset (s : State) : serve .reset s = .next (hardReset s) := rfl

@[simp] theorem serve_command (cmd : CmdWord) (data : Word) (s : State) :
    serve (.command cmd data) s = serveCommand cmd data s := rfl

theorem serveCommand_of_command {cmd : CmdWord} {data : Word} {i : Instr} (h : decode cmd data = .command i) (s : State) :
    serveCommand cmd data s = exec i s := by
  rw [serveCommand, h]

theorem serveCommand_of_badCmd {cmd : CmdWord} {data : Word} {why : BadCmd} (h : decode cmd data = .badCmd why) (s : State) :
    serveCommand cmd data s = badCommand s := by
  rw [serveCommand, h]

end Sys2Proof.Machine
end

