-- ==== Sys2Proof/Laws/PerInstr.lean ====
section
/-! SUPPORT. A statement about every command as syntax, one lemma for each constructor. -/

namespace Sys2Proof.Laws

/-- The row of the opcode map that a command's mnemonic names (30_encoding.md R65, R66). -/
def MatchesRow.row : Instr → OpcodeRow
  | .stat => ⟨0xFFFFFFFF, 0x0⟩
  | .pnew => ⟨0xFFFFFFFF, 0x1⟩
  | .prst => ⟨0xFFFFFFFF, 0x2⟩
  | .add _ _ => ⟨0xFFFFFC0F, 0x3⟩
  | .adds _ _ => ⟨0xFFFFFC0F, 0x4⟩
  | .uinit _ => ⟨0xFFFFFFFF, 0x5⟩
  | .read _ => ⟨0xFFFFFC0F, 0x6⟩
  | .reads _ => ⟨0xFFFFFC0F, 0x7⟩
  | .brd _ => ⟨0x000003FF, 0x8⟩
  | .bwr _ _ => ⟨0x000003FF, 0x9⟩
  | .wpos => ⟨0xFFFFFFFF, 0xA⟩
  | .plen => ⟨0xFFFFFFFF, 0xB⟩
  | .rpos => ⟨0xFFFFFFFF, 0xC⟩
  | .ulenr => ⟨0xFFFFFFFF, 0xD⟩

/-- A command's word matches its row, which is a row of the table (R66). -/
def MatchesRow.Statement (i : Instr) : Prop :=
  MatchesRow.row i ∈ opcodeTable ∧ (encode i).1 &&& (MatchesRow.row i).mask = (MatchesRow.row i).bits

/-- The mask of a bit command keeps the opcode and ADDR and drops NBITS (R66). -/
theorem MatchesRow.bits_word (op : BitVec 4) (n : BitVec 6) :
    commandWord op n 0 &&& commandWord 0xF 0 0x3FFFFF = commandWord op 0 0 := by
  refine BitVec.eq_of_getLsbD_eq fun i hi => ?_
  simp only [BitVec.getLsbD_and, commandWord_getLsbD]
  split
  · rename_i h
    have : (0xF : BitVec 4).getLsbD i = true := by
      interval_cases i <;> rfl
    rw [this, Bool.and_true]
  · split <;> simp

/-- The mask of a byte-access command keeps the opcode and NBITS and drops ADDR (R66). -/
theorem MatchesRow.byte_word (op : BitVec 4) (a : BitVec 22) :
    commandWord op 0 a &&& commandWord 0xF 0x3F 0 = commandWord op 0 0 := by
  refine BitVec.eq_of_getLsbD_eq fun i hi => ?_
  simp only [BitVec.getLsbD_and, commandWord_getLsbD]
  split
  · rename_i h
    have : (0xF : BitVec 4).getLsbD i = true := by
      interval_cases i <;> rfl
    rw [this, Bool.and_true]
  · split <;> simp

theorem MatchesRow.stat : MatchesRow.Statement .stat := ⟨by decide, by decide⟩
theorem MatchesRow.pnew : MatchesRow.Statement .pnew := ⟨by decide, by decide⟩
theorem MatchesRow.prst : MatchesRow.Statement .prst := ⟨by decide, by decide⟩
theorem MatchesRow.add (n : BitVec 6) (v : Word) : MatchesRow.Statement (.add n v) := 
  ⟨show (⟨0xFFFFFC0F, 0x3⟩ : OpcodeRow) ∈ opcodeTable by decide, bits_word 0x3 n⟩
theorem MatchesRow.adds (n : BitVec 6) (v : Word) : MatchesRow.Statement (.adds n v) :=
  ⟨show (⟨0xFFFFFC0F, 0x4⟩ : OpcodeRow) ∈ opcodeTable by decide, bits_word 0x4 n⟩
theorem MatchesRow.uinit (l : Word) : MatchesRow.Statement (.uinit l) :=
  ⟨show (⟨0xFFFFFFFF, 0x5⟩ : OpcodeRow) ∈ opcodeTable by decide, show commandWord 0x5 0 0 &&& 0xFFFFFFFF = 0x5 by decide⟩
theorem MatchesRow.read (n : BitVec 6) : MatchesRow.Statement (.read n) :=
  ⟨show (⟨0xFFFFFC0F, 0x6⟩ : OpcodeRow) ∈ opcodeTable by decide, bits_word 0x6 n⟩
theorem MatchesRow.reads (n : BitVec 6) : MatchesRow.Statement (.reads n) :=
  ⟨show (⟨0xFFFFFC0F, 0x7⟩ : OpcodeRow) ∈ opcodeTable by decide, bits_word 0x7 n⟩
theorem MatchesRow.brd (a : BitVec 22) : MatchesRow.Statement (.brd a) :=
  ⟨show (⟨0x000003FF, 0x8⟩ : OpcodeRow) ∈ opcodeTable by decide, byte_word 0x8 a⟩
theorem MatchesRow.bwr (a : BitVec 22) (b : Byte) : MatchesRow.Statement (.bwr a b) :=
  ⟨show (⟨0x000003FF, 0x9⟩ : OpcodeRow) ∈ opcodeTable by decide, byte_word 0x9 a⟩
theorem MatchesRow.wpos : MatchesRow.Statement .wpos := ⟨by decide, by decide⟩
theorem MatchesRow.plen : MatchesRow.Statement .plen := ⟨by decide, by decide⟩
theorem MatchesRow.rpos : MatchesRow.Statement .rpos := ⟨by decide, by decide⟩
theorem MatchesRow.ulenr : MatchesRow.Statement .ulenr := ⟨by decide, by decide⟩

end Sys2Proof.Laws
end

