-- ==== Sys2Proof/Tests/Slice0.lean ====
section
/-! SUPPORT. Tests of the model. The expected values are those of spec/: "V-…" is a vector of 95_test_vectors.md, a word "by hand"
is written out from the bit places of 30_encoding.md R61. The second half shows states and operands that meet the hypotheses of the
obligations. -/

namespace Sys2Proof.Tests

open Sys2Proof.Machine

/-! ## Helpers -/

/-- The capacity of most vectors: N = 4. -/
def four : Capacity := ⟨4, by decide, by decide⟩

/-- The reset state of a block of 4 bytes. -/
def blank : State := State.resetOf four

/-- A state of a block of 4 bytes with W, U and the buffer given. -/
def placed (w u : Cursor) (buf : Memory) : State := { blank with w := w, u := u, buf := buf }

/-- The faulted state after `add 58, 0` (V-F): FAULT = 1, CAUSE = 3. -/
def faulty : State := { blank with fault := true, cause := .badWidth }

def after : Result → Option State
  | .next t => some t
  | .fault _ => none
  | .refused _ => none

/-- RESP and RESULT. -/
def answered (r : Result) : Option (BitVec 2 × Word) :=
  (after r).bind fun t => t.answer.map fun a => (a.resp.code, a.result)

/-- BUF and W. -/
def packed (r : Result) : Option (Memory × Cursor) := (after r).map fun t => (t.buf, t.w)

/-- RESULT and U. -/
def unpacked (r : Result) : Option (Word × Cursor) :=
  (after r).bind fun t => t.answer.map fun a => (a.result, t.u)

/-- FAULT = 1, the cause and RESP = 1, everything else as before. -/
def failed (c : Cause) (s : State) : State := { s with fault := true, cause := c, answer := some ⟨.faulted, 0⟩ }

/-! ## Decoding: each word from R72, from a program of 95_test_vectors.md, or by hand from R61 and R65 -/

theorem test_decode_stat : decode 0x00000000 0 = .command .stat := by decide
theorem test_decode_pnew : decode 0b00000000000000000000000000000001 0 = .command .pnew := by decide
theorem test_decode_prst : decode 0b00000000000000000000000000000010 0 = .command .prst := by decide
theorem test_decode_add : decode 0x00000113 0x163 = .command (.add 17 355) := by decide
theorem test_decode_adds : decode 0x000000E4 0xFFFFFFFFFFFFF93E = .command (.adds 14 0xFFFFFFFFFFFFF93E) := by decide
theorem test_decode_uinit : decode 0x00000005 6 = .command (.uinit 6) := by decide
theorem test_decode_read : decode 0x00000396 0 = .command (.read 57) := by decide
theorem test_decode_reads : decode 0x000000E7 0 = .command (.reads 14) := by decide
theorem test_decode_brd : decode 0x00001408 0 = .command (.brd 5) := by decide
theorem test_decode_bwr : decode 0x00000C09 0x1FF = .command (.bwr 3 0xFF) := by decide
theorem test_decode_wpos : decode 0x0000000A 0 = .command .wpos := by decide
theorem test_decode_plen : decode 0x0000000B 0 = .command .plen := by decide
theorem test_decode_rpos : decode 0x0000000C 0 = .command .rpos := by decide
theorem test_decode_ulenr : decode 0b00000000000000000000000000001101 0 = .command .ulenr := by decide
/-- By hand: NBITS = 0b100001 at bits 9:4 and ADDR's highest bit at bit 31. -/
theorem test_decode_bits_by_hand :
    decode 0b00000000000000000000001000010011 7 = .command (.add 33 7) ∧
    decode 0b10000000000000000000010000001000 0 = .command (.brd 0x200001) := by decide
/-- V-F: a reserved opcode, and an unused field that is not zero. -/
theorem test_decode_refuses :
    decode 0x0000000E 0 = .badCmd .reservedOp ∧ decode 0x0000000F 0 = .badCmd .reservedOp ∧
    decode 0x00000010 0 = .badCmd .nonzeroNbits ∧ decode 0x00000401 0 = .badCmd .nonzeroAddr ∧
    decode 0x00000018 0 = .badCmd .nonzeroNbits ∧ decode 0x00000403 0 = .badCmd .nonzeroAddr := by decide
/-- The host's numbering: CMD is bits 31:0; DATA, where it is given, follows it. -/
theorem test_decodeTableWord :
    decodeTableWord 32 0x13 = some (.add 1 0) ∧ decodeTableWord 96 0x4100000073 = some (.add 7 65) ∧
    decodeTableWord 32 0xE = none := by decide
theorem test_step_runs_fetched_word :
    after (step (State.reset.withFetchWord 32 0x83)) = after (exec (.add 8 0) State.reset) := by decide

/-! ## Well-formedness: an ill-formed term for each check, and its edge -/

theorem test_descriptor_width_zero : Descriptor.wf ⟨0, false⟩ = false := by decide
theorem test_descriptor_width_58 : Descriptor.wf ⟨58, true⟩ = false ∧ Descriptor.wf ⟨57, true⟩ = true := by decide
theorem test_list_empty : Descriptor.listWf [] = false := by decide
theorem test_list_ill_formed_entry : Descriptor.listWf [⟨1, true⟩, ⟨0, false⟩] = false := by decide
theorem test_nbits_out_of_range :
    AsmLine.wf (.add 64 0) = false ∧ AsmLine.wf (.adds 64 0) = false ∧ AsmLine.wf (.read (-1)) = false ∧
    AsmLine.wf (.reads 64) = false ∧ AsmLine.wf (.reads 63) = true := by decide
theorem test_addr_out_of_range :
    AsmLine.wf (.brd 4194304) = false ∧ AsmLine.wf (.bwr (-1) 0) = false ∧ AsmLine.wf (.bzero 4194304) = false ∧
    AsmLine.wf (.brd 4194303) = true := by decide
theorem test_byte_out_of_range : AsmLine.wf (.bwr 0 256) = false ∧ AsmLine.wf (.bwr 0 (-1)) = false := by decide
theorem test_signed_out_of_range :
    AsmLine.wf (.adds 1 9223372036854775808) = false ∧ AsmLine.wf (.adds 1 (-9223372036854775808)) = true ∧
    AsmLine.wf (.put ⟨1, true⟩ 9223372036854775808) = false := by decide
theorem test_length_out_of_range : AsmLine.wf (.uinit 18446744073709551616) = false ∧ AsmLine.wf (.uinit (-1)) = false := by decide
theorem test_pseudo_out_of_range :
    AsmLine.wf (.put ⟨0, false⟩ 0) = false ∧ AsmLine.wf (.get ⟨58, false⟩) = false ∧ AsmLine.wf (.skip 58) = false ∧
    AsmLine.wf (.skip 57) = true := by decide

/-! ## The assembler (R70 to R72) -/

theorem test_parse_and_encode :
    parseLine "adds 14, -1730 ; the first field".toList = .line (.adds 14 (-1730)) ∧
    parseLine "bwr 3,0xFF".toList = .line (.bwr 3 255) ∧ parseLine "put s14, -1730".toList = .line (.put ⟨14, true⟩ (-1730)) ∧
    parseLine "  ; nothing".toList = .blank ∧ parseLine "add 7 65".toList = .malformed := by decide
theorem test_assemble_adds : (assemble (.adds 14 (-1730))).map encode = some (0x000000E4, 0xFFFFFFFFFFFFF93E) := by decide
theorem test_assemble_brd : (assemble (.brd 5)).map encode = some (0x00001408, 0) := by decide

/-- Log 14: a second record that does not fit its descriptors is refused with the first one written. -/
theorem test_encode_refused_later :
    ∃ t, encodeRecords [⟨8, false⟩] [[9], []] blank = .refused t ∧ t.buf = [(0, 9)] := ⟨_, rfl, rfl⟩

/-! ## Reset and the memory -/

theorem test_reset_memory_wf : State.reset.buf.wf := by decide
theorem test_reset_inv : State.reset.inv := by decide
/-- R40: the byte written is the byte read; a byte that becomes 0x00 is no longer listed. -/
theorem test_memory_write :
    Memory.write [(1, 0x11), (3, 0x33)] 2 0x22 = [(1, 0x11), (2, 0x22), (3, 0x33)] ∧
    Memory.write [(1, 0x11), (3, 0x33)] 3 0x00 = [(1, 0x11)] := by decide
/-- V-C: adv(c, k), among them the cursor (N,0). -/
theorem test_cursor_adv :
    Cursor.adv ⟨0, 7⟩ 1 = ⟨1, 0⟩ ∧ Cursor.adv ⟨2, 6⟩ 17 = ⟨4, 7⟩ ∧ Cursor.adv ⟨1, 7⟩ 58 = ⟨9, 1⟩ ∧
    Cursor.adv ⟨19, 7⟩ 1 = ⟨20, 0⟩ := by decide
/-- V-C: the chunks at (2,6), 17 bits. -/
theorem test_chunks : chunks 22 17 = [⟨2, 6, 2⟩, ⟨3, 0, 8⟩, ⟨4, 0, 7⟩] := by decide

/-! ## One step of each command -/

/-- V-F: STAT runs while faulted. -/
theorem test_stat_faulted : answered (exec .stat faulty) = some (0, 0x31) := by decide
/-- V-H: after `uinit 2`, MORE = 1. -/
theorem test_stat_more : answered (exec .stat { blank with ulen := 2 }) = some (0, 0x2) := by decide
/-- V-P: PNEW with BUF = BC 0A 77 and W = (1,4). -/
theorem test_pnew : packed (exec .pnew (placed ⟨1, 4⟩ ⟨0, 0⟩ [(0, 0xBC), (1, 0x0A), (2, 0x77)])) = some ([], ⟨0, 0⟩) := by decide
/-- V-P: PRST leaves BUF. -/
theorem test_prst :
    packed (exec .prst (placed ⟨1, 4⟩ ⟨0, 4⟩ [(0, 0xBC), (1, 0x0A)])) = some ([(0, 0xBC), (1, 0x0A)], ⟨0, 0⟩) := by decide
/-- V-A: two chunks, 5 + 8 bits. -/
theorem test_add_two_chunks :
    packed (exec (.add 13 0x1FFF) (placed ⟨0, 3⟩ ⟨0, 0⟩ [])) = some ([(0, 0xF8), (1, 0xFF)], ⟨2, 0⟩) := by decide
/-- V-A: every bit of DATA above bit 2 is discarded. -/
theorem test_add_high_bits :
    packed (exec (.add 3 0xFFFFFFFFFFFFFFFF) (placed ⟨0, 5⟩ ⟨0, 0⟩ [])) = some ([(0, 0xE0)], ⟨1, 0⟩) := by decide
/-- V-AS: sign 1, magnitude 101. -/
theorem test_adds_negative : packed (exec (.adds 3 0xFFFFFFFFFFFFFFFB) blank) = some ([(0, 0x0B)], ⟨0, 4⟩) := by decide
/-- V-AS: the most negative operand, whose low 5 magnitude bits are 0. -/
theorem test_adds_most_negative : packed (exec (.adds 5 0x8000000000000000) blank) = some ([(0, 0x01)], ⟨0, 6⟩) := by decide
/-- V-U: a new instance after `uinit 2`, `read 8`. -/
theorem test_uinit :
    (after (exec (.uinit 1) { placed ⟨0, 0⟩ ⟨1, 0⟩ [] with ulen := 2 })).map (fun t => (t.u, t.ulen)) = some (⟨0, 0⟩, 1) := by
  decide
/-- V-U: all 64 bits of DATA are compared. -/
theorem test_uinit_bad_length :
    after (exec (.uinit 0x8000000000000000) blank) = some (failed .badLen blank) := by decide
/-- V-R: 5 + 4 bits across the byte boundary. -/
theorem test_read_two_chunks :
    unpacked (exec (.read 9) (placed ⟨0, 0⟩ ⟨0, 3⟩ [(0, 0xA5), (1, 0x3C)])) = some (0x194, ⟨1, 4⟩) := by decide
/-- V-R: RD_OVERFLOW leaves U. -/
theorem test_read_overflow :
    after (exec (.read 5) (placed ⟨0, 0⟩ ⟨3, 4⟩ [])) = some (failed .rdOverflow (placed ⟨0, 0⟩ ⟨3, 4⟩ [])) := by decide
/-- V-RS: -5, sign-extended to 64 bits. -/
theorem test_reads_negative :
    unpacked (exec (.reads 3) (placed ⟨0, 0⟩ ⟨0, 0⟩ [(0, 0x0B)])) = some (0xFFFFFFFFFFFFFFFB, ⟨0, 4⟩) := by decide
/-- V-S4: the wire's -0 reads as 0. -/
theorem test_reads_minus_zero :
    unpacked (exec (.reads 3) (placed ⟨0, 0⟩ ⟨0, 0⟩ [(0, 0x01)])) = some (0, ⟨0, 4⟩) := by decide
/-- V-H. -/
theorem test_brd : answered (exec (.brd 0) (placed ⟨1, 0⟩ ⟨0, 0⟩ [(0, 0x5A)])) = some (0, 0x5A) := by decide
/-- V-H: BAD_ADDR at N. -/
theorem test_brd_bad_address : after (exec (.brd 4) blank) = some (failed .badAddr blank) := by decide
/-- V-H: BWR replaces, it does not OR. -/
theorem test_bwr_replaces :
    packed (exec (.bwr 2 0x0F) (placed ⟨0, 0⟩ ⟨0, 0⟩ [(2, 0xF0)])) = some ([(2, 0x0F)], ⟨0, 0⟩) := by decide
/-- V-H: DATA[63:8] is ignored. -/
theorem test_bwr_ignores_high_data : packed (serveCommand 0x809 0x1FF blank) = some ([(2, 0xFF)], ⟨0, 0⟩) := by decide
/-- V-H: after `add 5, 0`. -/
theorem test_wpos : answered (exec .wpos (placed ⟨0, 5⟩ ⟨0, 0⟩ [])) = some (0, 5) := by decide
/-- V-H: PLEN rounds up, and does not at (2,0). -/
theorem test_plen :
    answered (exec .plen (placed ⟨0, 5⟩ ⟨0, 0⟩ [])) = some (0, 1) ∧
    answered (exec .plen (placed ⟨2, 0⟩ ⟨0, 0⟩ [])) = some (0, 2) := by decide
/-- V-H: after `uinit 2`, `read 13`. -/
theorem test_rpos : answered (exec .rpos (placed ⟨0, 0⟩ ⟨1, 5⟩ [])) = some (0, 0xD) := by decide
/-- V-H: after `uinit 3`. -/
theorem test_ulenr : answered (exec .ulenr { blank with ulen := 3 }) = some (0, 3) := by decide
/-- V-F: while faulted, PNEW and an illegal word are REJECTED. -/
theorem test_gate_rejects :
    answered (serveCommand 0x1 0 faulty) = some (2, 0) ∧ answered (serveCommand 0xE 0 faulty) = some (2, 0) ∧
    answered (serveCommand 0x10 0 faulty) = some (2, 0) := by decide
/-- V-F: an illegal word while not faulted raises BAD_CMD. -/
theorem test_bad_command : after (serveCommand 0x10 0 blank) = some (failed .badCmd blank) := by decide
/-- V-F: BAD_WIDTH comes before WR_OVERFLOW. -/
theorem test_fault_priority :
    after (exec (.add 60 1) (placed ⟨4, 0⟩ ⟨0, 0⟩ [])) = some (failed .badWidth (placed ⟨4, 0⟩ ⟨0, 0⟩ [])) := by decide

/-! ## Witnesses: the hypotheses of each obligation that has some are met together, clause by clause -/

/-- W and U at (3,4), four bits before the end of the 4 bytes. -/
def late : State := placed ⟨3, 4⟩ ⟨3, 4⟩ [(0, 0x81), (3, 0x05)]

/-- W and U at (4,0), the end of the 4 bytes. -/
def full : State := placed ⟨4, 0⟩ ⟨4, 0⟩ []

/-- The host's next action is `a`. -/
def facing (a : HostAction) (s : State) : State := { s with pending := [a] }

theorem witness_StepKeepsInvariant : (facing (.command 0x43 0xF) late).inv ∧ ∃ t, step (facing (.command 0x43 0xF) late) = .next t :=
  ⟨by decide, _, rfl⟩
theorem witness_StepRunsDecodedCommand :
    (facing (.command 0x43 0xF) late).pending = .command 0x43 0xF :: [] ∧ decode 0x43 0xF = .command (.add 4 0xF) := by decide
theorem witness_StepAnswersIllegalWord :
    (facing (.command 0xE 0) faulty).pending = .command 0xE 0 :: [] ∧ (facing (.command 0xE 0) late).pending = .command 0xE 0 :: [] ∧
    decode 0xE 0 = .badCmd .reservedOp := by decide
theorem witness_StepResetsOrIdles : (facing .reset faulty).pending = .reset :: [] ∧ late.pending = [] := by decide
theorem witness_StepTakesOneActionAndKeepsCapacity : ∃ t, step (facing (.command 0x1 0) late) = .next t := ⟨_, rfl⟩
theorem witness_DecodedWordReencodes : decode 0xFFFFFC09 0x1FF = .command (.bwr 0x3FFFFF 0xFF) := by decide
theorem witness_OpcodeRowsAreDisjoint :
    (⟨0x000003FF, 0x8⟩ : OpcodeRow) ∈ opcodeTable ∧ (0xFFFFFC08 : CmdWord) &&& 0x000003FF = 0x8 := by decide
theorem witness_UnusedOperandBitsAreIgnored :
    (opField 0x86 ≠ 0x3 ∧ opField 0x86 ≠ 0x4 ∧ opField 0x86 ≠ 0x5 ∧ opField 0x86 ≠ 0x9) ∧
    (opField 0x9 = 0x9 ∧ (0x100 : Word).setWidth 8 = (0x200 : Word).setWidth 8) := by decide
/-- FAULT = 0 and no fault; FAULT = 0 and a fault. -/
theorem witness_FaultTableIsExact :
    late.fault = false ∧ faultOf late (.add 4 0) = .none ∧ faultOf late (.add 5 0) ≠ .none := by decide
theorem witness_FaultsArePrecise : late.fault = false ∧ ∃ t, serveCommand 0x53 0x1F late = .next t ∧ t.fault = true :=
  ⟨rfl, _, rfl, rfl⟩
theorem witness_FaultIsStickyUntilReset :
    (facing (.command 0x1 0) faulty).fault = true ∧
    (∀ a ∈ (facing (.command 0x1 0) faulty).pending.take 2, a ≠ .reset) ∧
    ∃ t, runSteps 2 (facing (.command 0x1 0) faulty) = .next t := ⟨rfl, by decide, _, rfl⟩
/-- While FAULT = 1: a query, a command that is none, an illegal word. While FAULT = 0: a command, an illegal word. -/
theorem witness_FaultGateAdmitsOnlyQueries :
    (faulty.fault = true ∧ decode 0x0 0 = .command .stat ∧ isQuery .stat = true ∧
      (∀ i, decode 0x1 0 = .command i → isQuery i = false) ∧ ∀ i, decode 0xE 0 = .command i → isQuery i = false) ∧
    (late.fault = false ∧ decode 0x1 0 = .command .pnew ∧ decode 0xE 0 = .badCmd .reservedOp) := by
  refine ⟨⟨rfl, by decide, rfl, fun i h => ?_, fun i h => ?_⟩, rfl, by decide, by decide⟩
  · have e : decode 0x1 0 = .command .pnew := by decide
    rw [e] at h
    cases h
    rfl
  · have e : decode 0xE 0 = .badCmd .reservedOp := by decide
    rw [e] at h
    cases h
theorem witness_WideFieldRaisesBadWidth :
    late.fault = false ∧ 57 < (58 : BitVec 6).toNat ∧ 57 < (63 : BitVec 6).toNat ∧
    Instr.reads 63 ∈ [Instr.add 63 0, .adds 63 0, .read 63, .reads 63] := by decide
/-- The first width that does not fit at (3,4): 5 bits for ADD and READ, 4 bits and the sign for ADDS and READS. -/
theorem witness_PackerPastTheEndOverflows :
    late.fault = false ∧ (5 : BitVec 6).toNat ≤ 57 ∧ 0 < (5 : BitVec 6).toNat ∧ 8 * late.capacity.bytes < late.w.pos + (5 : BitVec 6).toNat ∧
    8 * late.capacity.bytes < late.w.pos + (4 : BitVec 6).toNat + 1 ∧ 8 * full.capacity.bytes < full.w.pos + (0 : BitVec 6).toNat + 1 := by
  decide
theorem witness_ReaderPastTheEndOverflows :
    late.fault = false ∧ (5 : BitVec 6).toNat ≤ 57 ∧ 0 < (5 : BitVec 6).toNat ∧ 8 * late.capacity.bytes < late.u.pos + (5 : BitVec 6).toNat ∧
    8 * late.capacity.bytes < late.u.pos + (4 : BitVec 6).toNat + 1 ∧ 8 * full.capacity.bytes < full.u.pos + (0 : BitVec 6).toNat + 1 := by
  decide
theorem witness_OperandPastTheBufferFaults :
    late.fault = false ∧ late.capacity.bytes < (5 : Word).toNat ∧ late.capacity.bytes ≤ (4 : BitVec 22).toNat := by decide
theorem witness_PnewClearsBufferAndCursor : late.fault = false := rfl
theorem witness_PnewRestoresResetBuffer : late.inv ∧ late.fault = false := by decide
theorem witness_PrstMovesOnlyTheCursor : late.fault = false := rfl
/-- Width 0 at the very end; 4 bits that fit exactly. -/
theorem witness_AddOrsFieldAtCursor :
    (full.fault = false ∧ (0 : BitVec 6).toNat = 0) ∧
    (late.fault = false ∧ (4 : BitVec 6).toNat ≤ 57 ∧ late.w.pos + (4 : BitVec 6).toNat ≤ 8 * late.capacity.bytes) := by decide
theorem witness_AddsOrsSignAndMagnitude :
    late.fault = false ∧ (3 : BitVec 6).toNat ≤ 57 ∧ late.w.pos + (3 : BitVec 6).toNat + 1 ≤ 8 * late.capacity.bytes := by decide
theorem witness_AddDiscardsHighBits : (0x1D : Word).toNat % 2 ^ (4 : BitVec 6).toNat = (0xD : Word).toNat % 2 ^ (4 : BitVec 6).toNat := by
  decide
theorem witness_OnlyPnewAndBwrClearBits :
    (∃ t, exec (.add 4 0) late = .next t) ∧ clearsBits (.add 4 0) = false ∧ late.bitAt 7 = true := ⟨⟨_, rfl⟩, rfl, by decide⟩
theorem witness_AddsArePackedWithoutGap :
    late.fault = false ∧ (1 : BitVec 6).toNat ≤ 57 ∧ (3 : BitVec 6).toNat ≤ 57 ∧
    late.w.pos + (1 : BitVec 6).toNat + (3 : BitVec 6).toNat ≤ 8 * late.capacity.bytes := by decide
theorem witness_UinitCreatesUnpacker : late.fault = false ∧ (4 : Word).toNat ≤ late.capacity.bytes := by decide
theorem witness_ReadReturnsFieldAtCursor :
    (full.fault = false ∧ (0 : BitVec 6).toNat = 0) ∧
    (late.fault = false ∧ (4 : BitVec 6).toNat ≤ 57 ∧ late.u.pos + (4 : BitVec 6).toNat ≤ 8 * late.capacity.bytes) := by decide
theorem witness_ReadsReturnsSignedField :
    late.fault = false ∧ (3 : BitVec 6).toNat ≤ 57 ∧ late.u.pos + (3 : BitVec 6).toNat + 1 ≤ 8 * late.capacity.bytes := by decide
theorem witness_ReadsConcatenate :
    late.fault = false ∧ (1 : BitVec 6).toNat + (3 : BitVec 6).toNat ≤ 57 ∧
    late.u.pos + (1 : BitVec 6).toNat + (3 : BitVec 6).toNat ≤ 8 * late.capacity.bytes := by decide
theorem witness_UlenDoesNotLimitReads : (∃ t, exec (.read 4) late = .next t) ∧ ∃ t, exec (.reads 3) late = .next t :=
  ⟨⟨_, rfl⟩, ⟨_, rfl⟩⟩
theorem witness_NonWritersKeepBuffer : (∃ t, exec (.read 4) late = .next t) ∧ writesBuffer (.read 4) = false := ⟨⟨_, rfl⟩, rfl⟩
/-- W moves back by PRST, U by UINIT. -/
theorem witness_CursorsMoveBackOnlyToOrigin :
    (∃ t, exec .prst late = .next t ∧ t.w.pos < late.w.pos) ∧ ∃ t, exec (.uinit 0) late = .next t ∧ t.u.pos < late.u.pos :=
  ⟨⟨_, rfl, by decide⟩, ⟨_, rfl, by decide⟩⟩
theorem witness_BitCommandsAdvanceTheirCursor :
    late.fault = false ∧ (∃ t, exec (.add 4 0) late = .next t ∧ t.fault = false) ∧ (∃ t, exec (.adds 3 0) late = .next t ∧ t.fault = false) ∧
    (∃ t, exec (.read 4) late = .next t ∧ t.fault = false) ∧ ∃ t, exec (.reads 3) late = .next t ∧ t.fault = false :=
  ⟨rfl, ⟨_, rfl, rfl⟩, ⟨_, rfl, rfl⟩, ⟨_, rfl, rfl⟩, ⟨_, rfl, rfl⟩⟩
/-- In a block with nothing listed every bit is 0. -/
theorem bitAt_of_empty {s : State} (h : s.buf = []) (q : Nat) : s.bitAt q = false := by
  rw [State.bitAt, h]
  exact BitVec.getLsbD_zero
theorem witness_UnsignedFieldRoundTrip :
    blank.fault = false ∧ 1 ≤ (32 : BitVec 6).toNat ∧ (32 : BitVec 6).toNat ≤ 57 ∧
    blank.w.pos + (32 : BitVec 6).toNat ≤ 8 * blank.capacity.bytes ∧ blank.u = blank.w ∧
    ∀ q, blank.w.pos ≤ q → q < blank.w.pos + (32 : BitVec 6).toNat → blank.bitAt q = false :=
  ⟨rfl, by decide, by decide, by decide, rfl, fun q _ _ => bitAt_of_empty rfl q⟩
theorem witness_SignedFieldRoundTrip :
    blank.fault = false ∧ (31 : BitVec 6).toNat ≤ 57 ∧ blank.w.pos + (31 : BitVec 6).toNat + 1 ≤ 8 * blank.capacity.bytes ∧
    blank.u = blank.w ∧ (∀ q, blank.w.pos ≤ q → q ≤ blank.w.pos + (31 : BitVec 6).toNat → blank.bitAt q = false) ∧
    (5 : Word).toInt.natAbs < 2 ^ (31 : BitVec 6).toNat :=
  ⟨rfl, by decide, by decide, rfl, fun q _ _ => bitAt_of_empty rfl q, by decide⟩
theorem witness_BrdReturnsByte : late.fault = false ∧ (3 : BitVec 22).toNat < late.capacity.bytes := by decide
theorem witness_BwrReplacesByte : late.fault = false ∧ (3 : BitVec 22).toNat < late.capacity.bytes ∧ 2 ≠ (3 : BitVec 22).toNat := by decide
theorem witness_PositionAndCursorAreInverse : 67108863 < 2 ^ 26 := by decide
/-- The three outcomes: OK, FAULTED, REJECTED. -/
theorem witness_ResponseCodeTellsTheOutcome :
    answered (serveCommand 0x43 0xF late) = some (0, 0) ∧ answered (serveCommand 0x53 0xF late) = some (1, 0) ∧
    answered (serveCommand 0x43 0xF faulty) = some (2, 0) := by decide
theorem witness_StatReturnsStatusWord : late.cause = .none ∧ faulty.cause = .badWidth := by decide
/-- The operation's cursor at (2,6), the widest one from there. -/
theorem witness_ChunkSplitIsExact : (chunks 22 58).head? = some ⟨2, 6, 2⟩ ∧ (⟨2, 6, 2⟩ : Chunk) ∈ chunks 22 58 ∧ (chunks 22 58).tail ≠ [] ∧ 58 ≤ 58 := by decide
theorem witness_WideViewShowsFields : 8 * 1 ≤ 8 ∧ 8 + 16 ≤ 8 * (1 + 2) := by decide
/-- The two ends of each range. -/
theorem witness_AssemblerEncodesLines :
    (0 ≤ (63 : Int) ∧ (63 : Int) ≤ 63 ∧ -2 ^ 63 ≤ (-9223372036854775808 : Int) ∧ (-9223372036854775808 : Int) < 2 ^ 63) ∧
    (0 ≤ (4194303 : Int) ∧ (4194303 : Int) < 2 ^ 22 ∧ 0 ≤ (255 : Int) ∧ (255 : Int) ≤ 255) ∧
    (0 ≤ (18446744073709551615 : Int) ∧ (18446744073709551615 : Int) < 2 ^ 64) := by decide
/-- A value just outside each range, and the ends of the pseudo-instructions' widths. -/
theorem witness_AssemblerRejectsAndExpands :
    ((-1 : Int) < 0 ∧ 63 < (64 : Int)) ∧ 2 ^ 22 ≤ (4194304 : Int) ∧ 255 < (256 : Int) ∧ (1 ≤ 57 ∧ 57 ≤ 57) ∧ (0 : Int) ≤ 57 := by decide
theorem witness_RecordOccupiesItsBits : ∃ t, encodeRecord [⟨3, true⟩, ⟨4, false⟩] [-5, 9] blank = .written t := ⟨_, rfl⟩
theorem witness_DecodeAllRefusesOrEnds : (⟨58, false⟩ : Descriptor) ∈ [(⟨58, false⟩ : Descriptor)] ∧ 57 < (⟨58, false⟩ : Descriptor).width := by
  decide
theorem witness_DecodeAllRecordCount : ∃ rs t, decodeAll [⟨8, false⟩] 1 late = .records rs t := ⟨_, _, rfl⟩
theorem witness_RecordsRoundTrip :
    blank.w = ⟨0, 0⟩ ∧ (∀ q, blank.bitAt q = false) ∧ blank.fault = false ∧ Descriptor.listWf [⟨3, true⟩, ⟨4, false⟩] = true ∧
    (∀ xs ∈ [[-5, 9]], List.Forall₂ fits [⟨3, true⟩, ⟨4, false⟩] xs) ∧
    (∃ t, encodeRecords [⟨3, true⟩, ⟨4, false⟩] [[-5, 9]] blank = .written t) ∧
    ([[-5, 9]].length - 1) * Descriptor.recordBits [⟨3, true⟩, ⟨4, false⟩] / 8 < (1 : Word).toNat ∧
    (1 : Word).toNat ≤ [[-5, 9]].length * Descriptor.recordBits [⟨3, true⟩, ⟨4, false⟩] / 8 := by
  refine ⟨rfl, bitAt_of_empty rfl, rfl, by decide, fun xs h => ?_, ⟨_, rfl⟩, by decide, by decide⟩
  rw [List.mem_singleton.mp h]
  exact .cons (show (5 : Nat) < 2 ^ 3 by decide) (.cons (show (0 : Int) ≤ 9 ∧ (9 : Int) < 2 ^ 4 by decide) .nil)
theorem witness_WireBytesMoveUnchanged :
    (∃ bs s', takeBytes 4 0 late = .ok (bs, s')) ∧ blank.fault = false ∧ (∀ j, blank.buf.read j = 0x00) ∧ 4 ≤ blank.capacity.bytes :=
  ⟨⟨_, _, rfl⟩, rfl, fun _ => rfl, by decide⟩

end Sys2Proof.Tests
end

section
/-! PROOFS. Every command completes, and leaves the capacity and the host's further actions alone (00_scope.md R7; 10_state.md R21;
log 2). `EndsIn` states a postcondition of a command's outcome, with one rule for each shared operation of Machine/Ops.lean; the
rules hold for every postcondition. -/

namespace Sys2Proof.Machine

/-! ## Rules of the shared operations -/

/-- The outcome is no stop, and its state has the property. -/
def EndsIn (P : State → Prop) (r : Result) : Prop := ∃ t, r = .next t ∧ P t

theorem endsIn_next {P : State → Prop} {t : State} (h : P t) : EndsIn P (.next t) := ⟨t, rfl, h⟩

theorem EndsIn.of_eq_next {P : State → Prop} {r : Result} {t : State} (h : EndsIn P r) (hr : r = .next t) : P t := by
  obtain ⟨t', ht', hP⟩ := h
  cases ht'.symm.trans hr
  exact hP

theorem EndsIn.mono {P Q : State → Prop} {r : Result} (h : EndsIn P r) (hPQ : ∀ t, P t → Q t) : EndsIn Q r :=
  h.imp fun t ⟨hr, hP⟩ => ⟨hr, hPQ t hP⟩

theorem endsIn_raise {P : State → Prop} {c : Cause} {s : State} (h : P ((s.setFault c).respond .faulted 0)) :
    EndsIn P (raise c s) := endsIn_next h

theorem endsIn_query {P : State → Prop} {s : State} {x : Word} (h : P (s.respond .ok x)) : EndsIn P (query s x) :=
  endsIn_next h

/-- R12: an effect that reaches no missing byte is answered OK. -/
theorem endsIn_complete {P : State → Prop} {e : Except Fault (Word × State)} {x : Word} {t : State} (he : e = .ok (x, t))
    (h : P (t.respond .ok x)) : EndsIn P (complete e) := by
  rw [he]
  exact endsIn_next h

/-- R174: REJECTED while FAULT = 1, run while FAULT = 0. -/
theorem endsIn_gated {P : State → Prop} {s : State} {r : Result} (hrej : P (s.respond .rejected 0))
    (hrun : s.fault = false → EndsIn P r) : EndsIn P (gated s r) := by
  cases hf : s.fault with
  | true =>
    rw [gated_of_fault hf]
    exact endsIn_next hrej
  | false =>
    rw [gated_of_ready hf]
    exact hrun hf

/-- R175: the effect of a bit command is reached only with NBITS at most 57 and the whole extent in bounds. -/
theorem endsIn_bitCommand {P : State → Prop} {o : Cause} {p n k : Nat} {s : State} {e : Except Fault (Word × State)}
    (hraise : ∀ c, P ((s.setFault c).respond .faulted 0)) (heffect : n ≤ 57 → s.inBounds p k → EndsIn P (complete e)) :
    EndsIn P (bitCommand o p n k s e) := by
  obtain ⟨-, h⟩ | ⟨-, -, h⟩ | ⟨hn, hin, h⟩ := bitCommand_cases o p n k s e
  · rw [h]
    exact endsIn_raise (hraise _)
  · rw [h]
    exact endsIn_raise (hraise _)
  · rw [h]
    exact heffect hn hin

/-! ## The fields that no command changes -/

/-- What no command changes: N (R7, R21) and the host's actions still to come (log 2). -/
structure SameHost (s t : State) : Prop where
  pending : t.pending = s.pending
  capacity : t.capacity = s.capacity

theorem sameHost_raise (s : State) (c : Cause) : SameHost s ((s.setFault c).respond .faulted 0) := ⟨rfl, rfl⟩

theorem sameHost_respond (s : State) (r : Resp) (x : Word) : SameHost s (s.respond r x) := ⟨rfl, rfl⟩

theorem hardReset_sameHost (s : State) : SameHost s (hardReset s) := ⟨rfl, rfl⟩

theorem badCommand_sameHost (s : State) : EndsIn (SameHost s) (badCommand s) :=
  endsIn_gated (sameHost_respond ..) fun _ => endsIn_raise (sameHost_raise ..)

theorem execPnew_sameHost (s : State) : EndsIn (SameHost s) (execPnew s) := by
  refine endsIn_gated (sameHost_respond ..) fun _ => ?_
  obtain ⟨m, e, -⟩ := clearFrom_spec s.capacity.bytes 0 s (by omega)
  rw [e]
  exact endsIn_complete rfl ⟨rfl, rfl⟩

theorem execPrst_sameHost (s : State) : EndsIn (SameHost s) (execPrst s) :=
  endsIn_gated (sameHost_respond ..) fun _ => endsIn_complete rfl ⟨rfl, rfl⟩

theorem execAdd_sameHost (nbits : BitVec 6) (data : Word) (s : State) : EndsIn (SameHost s) (execAdd nbits data s) := by
  refine endsIn_gated (sameHost_respond ..) fun _ => endsIn_bitCommand (sameHost_raise s) fun _ hin => ?_
  obtain ⟨m, e, -⟩ := writeBits_spec (v := data) hin
  rw [e]
  exact endsIn_complete rfl ⟨rfl, rfl⟩

theorem execAdds_sameHost (nbits : BitVec 6) (data : Word) (s : State) : EndsIn (SameHost s) (execAdds nbits data s) := by
  refine endsIn_gated (sameHost_respond ..) fun _ => endsIn_bitCommand (sameHost_raise s) fun _ hin => ?_
  obtain ⟨m, e, -⟩ := writeSigned_spec (x := signedOf data) hin
  rw [e]
  exact endsIn_complete rfl ⟨rfl, rfl⟩

theorem execUinit_sameHost (len : Word) (s : State) : EndsIn (SameHost s) (execUinit len s) := by
  refine endsIn_gated (sameHost_respond ..) fun _ => ?_
  split
  · exact endsIn_raise (sameHost_raise ..)
  · exact endsIn_complete rfl ⟨rfl, rfl⟩

theorem execRead_sameHost (nbits : BitVec 6) (s : State) : EndsIn (SameHost s) (execRead nbits s) := by
  refine endsIn_gated (sameHost_respond ..) fun _ => endsIn_bitCommand (sameHost_raise s) fun hn hin => ?_
  obtain ⟨x, e, -⟩ := readBits_spec (by omega) hin
  exact endsIn_complete e ⟨rfl, rfl⟩

theorem execReads_sameHost (nbits : BitVec 6) (s : State) : EndsIn (SameHost s) (execReads nbits s) := by
  refine endsIn_gated (sameHost_respond ..) fun _ => endsIn_bitCommand (sameHost_raise s) fun hn hin => ?_
  obtain ⟨m, -, e⟩ := readSigned_spec (by omega) hin
  exact endsIn_complete e ⟨rfl, rfl⟩

theorem execBrd_sameHost (addr : BitVec 22) (s : State) : EndsIn (SameHost s) (execBrd addr s) := by
  refine endsIn_gated (sameHost_respond ..) fun _ => ?_
  split
  · exact endsIn_raise (sameHost_raise ..)
  · next h =>
    rw [memRead_of_lt (Nat.lt_of_not_le h)]
    exact endsIn_complete rfl ⟨rfl, rfl⟩

theorem execBwr_sameHost (addr : BitVec 22) (byte : Byte) (s : State) : EndsIn (SameHost s) (execBwr addr byte s) := by
  refine endsIn_gated (sameHost_respond ..) fun _ => ?_
  split
  · exact endsIn_raise (sameHost_raise ..)
  · next h =>
    rw [memWrite_of_lt byte (Nat.lt_of_not_le h)]
    exact endsIn_complete rfl ⟨rfl, rfl⟩

theorem exec_sameHost (i : Instr) (s : State) : EndsIn (SameHost s) (exec i s) := by
  cases i with
  | stat | wpos | plen | rpos | ulenr => exact endsIn_query (sameHost_respond ..)
  | pnew => exact execPnew_sameHost s
  | prst => exact execPrst_sameHost s
  | add nbits data => exact execAdd_sameHost nbits data s
  | adds nbits data => exact execAdds_sameHost nbits data s
  | uinit len => exact execUinit_sameHost len s
  | read nbits => exact execRead_sameHost nbits s
  | reads nbits => exact execReads_sameHost nbits s
  | brd addr => exact execBrd_sameHost addr s
  | bwr addr byte => exact execBwr_sameHost addr byte s

/-! ## One action of the host, and the step -/

theorem serve_sameHost (a : HostAction) (s : State) : EndsIn (SameHost s) (serve a s) := by
  cases a with
  | reset => exact endsIn_next (hardReset_sameHost s)
  | command cmd data =>
    rw [serve_command]
    cases hd : decode cmd data with
    | badCmd why =>
      rw [serveCommand_of_badCmd hd]
      exact badCommand_sameHost s
    | command i =>
      rw [serveCommand_of_command hd]
      exact exec_sameHost i s

/-- R7, R21, log 2. The tail of an empty list is empty, so the idle step is no exception. -/
theorem step_takes_action (s : State) : EndsIn (fun t => t.pending = s.pending.tail ∧ t.capacity = s.capacity) (step s) := by
  cases hp : s.pending with
  | nil =>
    rw [step_idle hp]
    exact endsIn_next ⟨hp, rfl⟩
  | cons a as =>
    rw [step_action hp]
    exact (serve_sameHost a (s.setPending as)).mono fun t h => ⟨h.pending, h.capacity⟩

/-- Settles O8: whichever action is served leaves the ports and N as it finds them, after `takeAction` has moved the ports on. -/
theorem stepTakesOneActionAndKeepsCapacity : Obligations.StepTakesOneActionAndKeepsCapacity :=
  fun s _ h => (step_takes_action s).of_eq_next h

end Sys2Proof.Machine
end

section
/-! PROOFS. The invariants of 10_state.md R33: they hold after reset (R31), and every step keeps them. First what each field update
asks for, then one rule for each shared operation of Machine/Ops.lean, then the commands. -/

namespace Sys2Proof.Machine

/-! ## Reset -/

theorem resetOf_inv (n : Capacity) : (State.resetOf n).inv :=
  ⟨Nat.zero_le _, Nat.zero_le _, Nat.zero_le _, iff_of_true rfl rfl, Memory.wf_nil, by simp⟩

/-! ## The field updates -/

section
variable {s : State} (h : s.inv)
include h

theorem respond_inv (r : Resp) (x : Word) : (s.respond r x).inv := h

theorem setPending_inv (as : List HostAction) : (s.setPending as).inv := h

theorem setFault_inv {c : Cause} (hc : c ≠ .none) : (s.setFault c).inv := by
  obtain ⟨hw, hu, hlen, -, hwf, hlisted⟩ := h
  exact ⟨hw, hu, hlen, iff_of_false (by simp) hc, hwf, hlisted⟩

theorem setW_inv {c : Cursor} (hc : c.pos ≤ 8 * s.capacity.bytes) : (s.setW c).inv := by
  obtain ⟨-, hrest⟩ := h
  exact ⟨hc, hrest⟩

theorem setU_inv {c : Cursor} (hc : c.pos ≤ 8 * s.capacity.bytes) : (s.setU c).inv := by
  obtain ⟨hw, -, hrest⟩ := h
  exact ⟨hw, hc, hrest⟩

theorem setUlen_inv {n : BitVec 23} (hn : n.toNat ≤ s.capacity.bytes) : (s.setUlen n).inv := by
  obtain ⟨hw, hu, -, hrest⟩ := h
  exact ⟨hw, hu, hn, hrest⟩

/-- The hypotheses on the new list are those that `writeBits_spec`, `writeSigned_spec` and `clearFrom_spec` provide. -/
theorem setBuf_inv {m : Memory} (hm : s.buf.wf → m.wf) (hmem : ∀ c ∈ m, c.1 < s.capacity.bytes ∨ c ∈ s.buf) :
    (s.setBuf m).inv := by
  obtain ⟨hw, hu, hlen, hcause, hwf, hlisted⟩ := h
  exact ⟨hw, hu, hlen, hcause, hm hwf, fun c hc => (hmem c hc).elim id (hlisted c)⟩

end

/-- R86: an operation in bounds leaves its cursor within the buffer. One of no bits is in bounds anywhere, but it does not move the
cursor. -/
theorem adv_pos_le {s : State} {c : Cursor} {n : Nat} (hc : c.pos ≤ 8 * s.capacity.bytes) (hin : s.inBounds c.pos n) :
    (c.adv n).pos ≤ 8 * s.capacity.bytes := by
  rw [Cursor.pos_adv_of_lt (s.inBounds_lt hin c.pos_lt)]
  unfold State.inBounds at hin
  omega

theorem adv_w_le {s : State} {n : Nat} (h : s.inv) (hin : s.inBounds s.w.pos n) :
    (s.w.adv n).pos ≤ 8 * s.capacity.bytes := by
  obtain ⟨hw, -⟩ := h
  exact adv_pos_le hw hin

theorem adv_u_le {s : State} {n : Nat} (h : s.inv) (hin : s.inBounds s.u.pos n) :
    (s.u.adv n).pos ≤ 8 * s.capacity.bytes := by
  obtain ⟨-, hu, -⟩ := h
  exact adv_pos_le hu hin

/-! ## The shared operations -/

theorem complete_inv {e : Except Fault (Word × State)} {x : Word} {t : State} (he : e = .ok (x, t)) (ht : t.inv) :
    EndsIn State.inv (complete e) :=
  endsIn_complete he (respond_inv ht ..)

section
variable {s : State} (h : s.inv)
include h

theorem raise_inv {c : Cause} (hc : c ≠ .none) : EndsIn State.inv (raise c s) :=
  endsIn_raise (respond_inv (setFault_inv h hc) ..)

theorem query_inv (x : Word) : EndsIn State.inv (query s x) :=
  endsIn_query (respond_inv h ..)

theorem gated_inv {r : Result} (hr : EndsIn State.inv r) : EndsIn State.inv (gated s r) :=
  endsIn_gated (respond_inv h ..) fun _ => hr

theorem bitCommand_inv {o : Cause} {p n k : Nat} {e : Except Fault (Word × State)} (ho : o ≠ .none)
    (heffect : n ≤ 57 → s.inBounds p k → EndsIn State.inv (complete e)) :
    EndsIn State.inv (bitCommand o p n k s e) := by
  obtain ⟨-, hr⟩ | ⟨-, -, hr⟩ | ⟨hn, hin, hr⟩ := bitCommand_cases o p n k s e
  · rw [hr]
    exact raise_inv h (by decide)
  · rw [hr]
    exact raise_inv h ho
  · rw [hr]
    exact heffect hn hin

/-! ## The commands -/

theorem badCommand_inv : EndsIn State.inv (badCommand s) :=
  gated_inv h (raise_inv h (by decide))

theorem execPnew_inv : EndsIn State.inv (execPnew s) := by
  obtain ⟨m, e, -, hwf, hmem⟩ := clearFrom_spec s.capacity.bytes 0 s (by omega)
  refine gated_inv h ?_
  rw [e]
  exact complete_inv rfl (setW_inv (setBuf_inv h hwf hmem) (Nat.zero_le _))

theorem execPrst_inv : EndsIn State.inv (execPrst s) :=
  gated_inv h (complete_inv rfl (setW_inv h (Nat.zero_le _)))

theorem execAdd_inv (nbits : BitVec 6) (data : Word) : EndsIn State.inv (execAdd nbits data s) := by
  refine gated_inv h (bitCommand_inv h (by decide) fun _ hin => ?_)
  obtain ⟨m, e, -, hwf, hmem⟩ := writeBits_spec (v := data) hin
  rw [e]
  exact complete_inv rfl (setW_inv (setBuf_inv h hwf hmem) (adv_w_le h hin))

theorem execAdds_inv (nbits : BitVec 6) (data : Word) : EndsIn State.inv (execAdds nbits data s) := by
  refine gated_inv h (bitCommand_inv h (by decide) fun _ hin => ?_)
  obtain ⟨m, e, -, hwf, hmem⟩ := writeSigned_spec (x := signedOf data) hin
  rw [e]
  exact complete_inv rfl (setW_inv (setBuf_inv h hwf hmem) (adv_w_le h hin))

/-- R120: a length of at most N is still at most N in ULEN's 23 bits. -/
theorem execUinit_inv (len : Word) : EndsIn State.inv (execUinit len s) := by
  refine gated_inv h ?_
  split
  · exact raise_inv h (by decide)
  · next hlen =>
    have hulen : (BitVec.ofNat 23 len.toNat).toNat ≤ s.capacity.bytes := by
      rw [BitVec.toNat_ofNat]
      exact (Nat.mod_le _ _).trans (Nat.le_of_not_lt hlen)
    exact complete_inv rfl (setUlen_inv (setU_inv h (Nat.zero_le _)) hulen)

theorem execRead_inv (nbits : BitVec 6) : EndsIn State.inv (execRead nbits s) := by
  refine gated_inv h (bitCommand_inv h (by decide) fun hn hin => ?_)
  obtain ⟨x, e, -⟩ := readBits_spec (by omega) hin
  exact complete_inv e (setU_inv h (adv_u_le h hin))

theorem execReads_inv (nbits : BitVec 6) : EndsIn State.inv (execReads nbits s) := by
  refine gated_inv h (bitCommand_inv h (by decide) fun hn hin => ?_)
  obtain ⟨m, -, e⟩ := readSigned_spec (by omega) hin
  exact complete_inv e (setU_inv h (adv_u_le h hin))

theorem execBrd_inv (addr : BitVec 22) : EndsIn State.inv (execBrd addr s) := by
  refine gated_inv h ?_
  split
  · exact raise_inv h (by decide)
  · next ha =>
    rw [memRead_of_lt (Nat.lt_of_not_le ha)]
    exact complete_inv rfl h

theorem execBwr_inv (addr : BitVec 22) (byte : Byte) : EndsIn State.inv (execBwr addr byte s) := by
  refine gated_inv h ?_
  split
  · exact raise_inv h (by decide)
  · next ha =>
    have hlt := Nat.lt_of_not_le ha
    rw [memWrite_of_lt byte hlt]
    refine complete_inv rfl (setBuf_inv h (fun hwf => Memory.wf_write hwf _ _) fun c hc => ?_)
    exact (Memory.mem_write hc).imp_left fun hca : c.1 = addr.toNat => hca.trans_lt hlt

theorem exec_inv (i : Instr) : EndsIn State.inv (exec i s) := by
  cases i with
  | stat | wpos | plen | rpos | ulenr => exact query_inv h _
  | pnew => exact execPnew_inv h
  | prst => exact execPrst_inv h
  | add nbits data => exact execAdd_inv h nbits data
  | adds nbits data => exact execAdds_inv h nbits data
  | uinit len => exact execUinit_inv h len
  | read nbits => exact execRead_inv h nbits
  | reads nbits => exact execReads_inv h nbits
  | brd addr => exact execBrd_inv h addr
  | bwr addr byte => exact execBwr_inv h addr byte

/-! ## One action of the host, and the step -/

theorem serve_inv (a : HostAction) : EndsIn State.inv (serve a s) := by
  cases a with
  | reset => exact endsIn_next (setPending_inv (resetOf_inv s.capacity) _)
  | command cmd data =>
    rw [serve_command]
    cases hd : decode cmd data with
    | badCmd why =>
      rw [serveCommand_of_badCmd hd]
      exact badCommand_inv h
    | command i =>
      rw [serveCommand_of_command hd]
      exact exec_inv h i

theorem step_inv : EndsIn State.inv (step s) := by
  cases hp : s.pending with
  | nil =>
    rw [step_idle hp]
    exact endsIn_next h
  | cons a as =>
    rw [step_action hp]
    exact serve_inv (setPending_inv h as) a

end

/-- Settles O3: every command's checks bound the cursors and the addresses it writes, every fault it raises has a cause, and the
memory's operations keep the canonical form. -/
theorem stepKeepsInvariant : Obligations.StepKeepsInvariant :=
  fun _ _ h ht => (step_inv h).of_eq_next ht

/-- Settles O2: reset is `resetOf` but for the host's actions, which the invariants do not mention. -/
theorem resetMeetsInvariant : Obligations.ResetMeetsInvariant :=
  ⟨fun s => setPending_inv (resetOf_inv s.capacity) _, resetOf_inv, resetOf_inv _⟩

/-- Settles O1: reset keeps N and the host's actions, and takes every other field from the constant state `resetOf`. -/
theorem resetSetsEveryElement : Obligations.ResetSetsEveryElement := by
  intro s
  rw [hardReset_eq]
  exact ⟨Memory.read_nil, rfl, rfl, rfl, rfl, rfl⟩

end Sys2Proof.Machine
end

section
/-! PROOFS. READ and READS do not depend on ULEN (10_state.md R24; 42_unpacker.md R128): from a state with another ULEN they have the
same outcome but for that field. -/

namespace Sys2Proof.Machine

/-- The same outcome with ULEN replaced in its next state. -/
def withUlen (len : BitVec 23) : Result → Result
  | .next t => .next (t.setUlen len)
  | .fault f => .fault f
  | .refused r => .refused r

/-- The same for a command's effect. -/
def effectWithUlen (len : BitVec 23) (e : Except Fault (Word × State)) : Except Fault (Word × State) :=
  e.map fun r => (r.1, r.2.setUlen len)

theorem complete_effectWithUlen (len : BitVec 23) (e : Except Fault (Word × State)) :
    complete (effectWithUlen len e) = withUlen len (complete e) := by
  cases e <;> rfl

theorem gated_setUlen (s : State) (len : BitVec 23) (r : Result) :
    gated (s.setUlen len) (withUlen len r) = withUlen len (gated s r) := by
  cases hf : s.fault with
  | true =>
    rw [gated_of_fault hf, gated_of_fault (s := s.setUlen len) hf]
    rfl
  | false => rw [gated_of_ready hf, gated_of_ready (s := s.setUlen len) hf]

/-- The checks of R175 do not read ULEN. -/
theorem bitCommand_setUlen (o : Cause) (p n k : Nat) (s : State) (len : BitVec 23) {e e' : Except Fault (Word × State)}
    (he : n ≤ 57 → s.inBounds p k → e' = effectWithUlen len e) :
    bitCommand o p n k (s.setUlen len) e' = withUlen len (bitCommand o p n k s e) := by
  obtain ⟨hn, hr⟩ | ⟨hn, hin, hr⟩ | ⟨hn, hin, hr⟩ := bitCommand_cases o p n k s e
  · rw [hr, bitCommand_badWidth hn]
    rfl
  · rw [hr, bitCommand_overflow hn (s := s.setUlen len) hin]
    rfl
  · rw [hr, bitCommand_ok hn (s := s.setUlen len) hin, he hn hin, complete_effectWithUlen]

/-- R92: the bits that ReadBits returns are the buffer's at U, so they determine the word. -/
theorem readBits_setUlen {n : Nat} {s : State} (len : BitVec 23) (hn : n ≤ 64) (h : s.inBounds s.u.pos n) :
    readBits n (s.setUlen len) = effectWithUlen len (readBits n s) := by
  obtain ⟨r, e, hbits⟩ := readBits_spec hn h
  obtain ⟨r', e', hbits'⟩ := readBits_spec (s := s.setUlen len) hn h
  obtain rfl : r' = r := BitVec.eq_of_getLsbD_eq fun i _ => (hbits' i).trans (hbits i).symm
  rw [e, e']
  rfl

/-- R126: READS's sign is a bit of the buffer too, and its magnitude is determined by its bits. -/
theorem readSigned_setUlen {w : Nat} {s : State} (len : BitVec 23) (hw : w ≤ 64) (h : s.inBounds s.u.pos (w + 1)) :
    readSigned w (s.setUlen len) = effectWithUlen len (readSigned w s) := by
  obtain ⟨m, hbits, e⟩ := readSigned_spec hw h
  obtain ⟨m', hbits', e'⟩ := readSigned_spec (s := s.setUlen len) hw h
  obtain rfl : m' = m := BitVec.eq_of_getLsbD_eq fun i _ => (hbits' i).trans (hbits i).symm
  rw [e, e']
  rfl

theorem execRead_setUlen (nbits : BitVec 6) (s : State) (len : BitVec 23) :
    execRead nbits (s.setUlen len) = withUlen len (execRead nbits s) := by
  rw [execRead, execRead, ← gated_setUlen, ← bitCommand_setUlen]
  · rfl
  · exact fun hn hin => readBits_setUlen len (by omega) hin

theorem execReads_setUlen (nbits : BitVec 6) (s : State) (len : BitVec 23) :
    execReads nbits (s.setUlen len) = withUlen len (execReads nbits s) := by
  rw [execReads, execReads, ← gated_setUlen, ← bitCommand_setUlen]
  · rfl
  · exact fun hn hin => readSigned_setUlen len (by omega) hin

/-- Settles O35: replacing ULEN commutes with READ and with READS. -/
theorem ulenDoesNotLimitReads : Obligations.UlenDoesNotLimitReads := by
  refine fun n len s t => ⟨fun h => ?_, fun h => ?_⟩
  · exact (execRead_setUlen n s len).trans (congrArg (withUlen len) h)
  · exact (execReads_setUlen n s len).trans (congrArg (withUlen len) h)

end Sys2Proof.Machine
end

section
/-! PROOFS. What the query commands answer: the fields of the status word (10_state.md R28, R29; 43_host_access.md R140) and the
positions and lengths (R30, R142 to R148). -/

namespace Sys2Proof.Machine

/-! ## The status word -/

/-- The layout of R29, bit by bit. -/
theorem status_getLsbD (s : State) (i : Nat) :
    s.status.getLsbD i =
      if i = 0 then s.fault else if i = 1 then s.more else if i < 4 then false else s.cause.code.getLsbD (i - 4) := by
  rw [State.status, BitVec.getLsbD_setWidth]
  simp only [BitVec.getLsbD_append]
  match i with
  | 0 | 1 | 2 | 3 => simp
  | i + 4 =>
    have hcode : s.cause.code.getLsbD i = true → i + 4 < 64 := fun hi => by
      have := BitVec.lt_of_getLsbD hi
      omega
    simpa using hcode

theorem status_cause (s : State) : s.status.extractLsb' 4 4 = s.cause.code := by
  refine BitVec.eq_of_getLsbD_eq fun i hi => ?_
  rw [BitVec.getLsbD_extractLsb', status_getLsbD, if_neg (by omega), if_neg (by omega), if_neg (by omega),
    Nat.add_sub_cancel_left, decide_eq_true hi, Bool.true_and]

theorem status_bits_2_3 (s : State) : s.status.extractLsb' 2 2 = 0 := by
  refine BitVec.eq_of_getLsbD_eq fun i hi => ?_
  rw [BitVec.getLsbD_extractLsb', status_getLsbD, if_neg (by omega), if_neg (by omega), if_pos (by omega)]
  simp

theorem status_bits_8_up (s : State) : s.status.extractLsb' 8 56 = 0 := by
  refine BitVec.eq_of_getLsbD_eq fun i hi => ?_
  rw [BitVec.getLsbD_extractLsb', status_getLsbD, if_neg (by omega), if_neg (by omega), if_neg (by omega),
    BitVec.getLsbD_of_ge _ _ (by omega)]
  simp

/-- Settles O41: STAT is a query, and the fields of its word are those of `status_getLsbD`. -/
theorem statReturnsStatusWord : Obligations.StatReturnsStatusWord := by
  intro s
  have hcause : ∀ c, s.cause = c → s.status.extractLsb' 4 4 = c.code := fun c hc => hc ▸ status_cause s
  exact ⟨s.status, rfl, status_getLsbD s 0, status_getLsbD s 1, status_bits_2_3 s, status_bits_8_up s, hcause .none,
    hcause .wrOverflow, hcause .rdOverflow, hcause .badWidth, hcause .badCmd, hcause .badAddr, hcause .badLen⟩

/-! ## The positions and lengths -/

/-- R30: a number below 2^64 is unchanged on the result port. -/
theorem zextNat_toNat {n : Nat} (h : n < 2 ^ 64) : (zextNat n).toNat = n := by
  rw [zextNat, BitVec.toNat_ofNat, Nat.mod_eq_of_lt h]

theorem zextNat_pos_toNat (c : Cursor) : (zextNat c.pos).toNat = 8 * c.byte.toNat + c.bit.toNat :=
  zextNat_toNat (c.pos_lt.trans (by decide))

/-- R144: the byte index, rounded up. -/
theorem consumedLength_eq (s : State) :
    s.consumedLength = if s.w.bit.toNat = 0 then s.w.byte.toNat else s.w.byte.toNat + 1 := by
  have hbit : s.w.bit ≠ 0 ↔ s.w.bit.toNat ≠ 0 := BitVec.toNat_ne_iff_ne.symm
  simp only [State.consumedLength, hbit]
  split <;> simp_all

theorem consumedLength_lt (s : State) : s.consumedLength < 2 ^ 64 := by
  have := s.w.byte.isLt
  rw [consumedLength_eq]
  split <;> omega

/-- Settles O42: each of the four is a query, and its number fits the result port. -/
theorem queriesReturnPositionsAndLengths : Obligations.QueriesReturnPositionsAndLengths := by
  intro s
  refine ⟨zextNat s.w.pos, zextNat s.consumedLength, zextNat s.u.pos, zextNat s.ulen.toNat,
    rfl, zextNat_pos_toNat s.w, rfl, ?_, rfl, zextNat_pos_toNat s.u, rfl, ?_⟩
  · rw [zextNat_toNat (consumedLength_lt s), consumedLength_eq]
  · exact zextNat_toNat (s.ulen.isLt.trans (by decide))

end Sys2Proof.Machine
end

section
/-! PROOFS. What the commands do to the buffer and to its bounds (20_memory.md R44, R47, R48): no step stops, the commands that do
not write BUF leave it alone, ADD and ADDS set bits and clear none, and an extent past the end raises the overflow. -/

namespace Sys2Proof.Machine

/-! ## No step stops -/

theorem EndsIn.completes {P : State → Prop} {r : Result} (h : EndsIn P r) : Completes r := h.imp fun _ => And.left

/-- Settles O4: the postcondition `step_takes_action` already says that a step ends in a next state. Its proof, command by command,
derives from each check of R171 that the effect after it reaches no missing byte. -/
theorem everyStepCompletes : Obligations.EveryStepCompletes := fun s => (step_takes_action s).completes

/-! ## The commands that do not write the buffer -/

/-- BUF as it was, as a list (log 9), so byte for byte. -/
def SameBuffer (s t : State) : Prop := t.buf = s.buf

theorem sameBuffer_raise (s : State) (c : Cause) : SameBuffer s ((s.setFault c).respond .faulted 0) := rfl

theorem sameBuffer_respond (s : State) (r : Resp) (x : Word) : SameBuffer s (s.respond r x) := rfl

theorem execPrst_sameBuffer (s : State) : EndsIn (SameBuffer s) (execPrst s) :=
  endsIn_gated (sameBuffer_respond ..) fun _ => endsIn_complete rfl rfl

theorem execUinit_sameBuffer (len : Word) (s : State) : EndsIn (SameBuffer s) (execUinit len s) := by
  refine endsIn_gated (sameBuffer_respond ..) fun _ => ?_
  split
  · exact endsIn_raise (sameBuffer_raise ..)
  · exact endsIn_complete rfl rfl

theorem execRead_sameBuffer (nbits : BitVec 6) (s : State) : EndsIn (SameBuffer s) (execRead nbits s) := by
  refine endsIn_gated (sameBuffer_respond ..) fun _ => endsIn_bitCommand (sameBuffer_raise s) fun hn hin => ?_
  obtain ⟨x, e, -⟩ := readBits_spec (by omega) hin
  exact endsIn_complete e rfl

theorem execReads_sameBuffer (nbits : BitVec 6) (s : State) : EndsIn (SameBuffer s) (execReads nbits s) := by
  refine endsIn_gated (sameBuffer_respond ..) fun _ => endsIn_bitCommand (sameBuffer_raise s) fun hn hin => ?_
  obtain ⟨m, -, e⟩ := readSigned_spec (by omega) hin
  exact endsIn_complete e rfl

theorem execBrd_sameBuffer (addr : BitVec 22) (s : State) : EndsIn (SameBuffer s) (execBrd addr s) := by
  refine endsIn_gated (sameBuffer_respond ..) fun _ => ?_
  split
  · exact endsIn_raise (sameBuffer_raise ..)
  · next h =>
    rw [memRead_of_lt (Nat.lt_of_not_le h)]
    exact endsIn_complete rfl rfl

theorem exec_sameBuffer {i : Instr} (hi : writesBuffer i = false) (s : State) : EndsIn (SameBuffer s) (exec i s) := by
  cases i with
  | stat | wpos | plen | rpos | ulenr => exact endsIn_query (sameBuffer_respond ..)
  | prst => exact execPrst_sameBuffer s
  | uinit len => exact execUinit_sameBuffer len s
  | read nbits => exact execRead_sameBuffer nbits s
  | reads nbits => exact execReads_sameBuffer nbits s
  | brd addr => exact execBrd_sameBuffer addr s
  | pnew | add | adds | bwr => nomatch hi

/-- Settles O36: a command that does not write has no MemWrite on any path, and a fault or a rejection has no effect on BUF. -/
theorem nonWritersKeepBuffer : Obligations.NonWritersKeepBuffer :=
  fun _ s _ h hi => (exec_sameBuffer hi s).of_eq_next h

/-! ## The bits that a command keeps set -/

/-- R47: no bit of the buffer is cleared. -/
def KeepsBits (s t : State) : Prop := ∀ q, s.bitAt q = true → t.bitAt q = true

theorem SameBuffer.keepsBits {s t : State} (h : SameBuffer s t) : KeepsBits s t :=
  fun q hq => (State.bitAt_congr h q).trans hq

theorem keepsBits_raise (s : State) (c : Cause) : KeepsBits s ((s.setFault c).respond .faulted 0) :=
  (sameBuffer_raise s c).keepsBits

theorem keepsBits_respond (s : State) (r : Resp) (x : Word) : KeepsBits s (s.respond r x) :=
  (sameBuffer_respond s r x).keepsBits

theorem execAdd_keepsBits (nbits : BitVec 6) (data : Word) (s : State) : EndsIn (KeepsBits s) (execAdd nbits data s) := by
  refine endsIn_gated (keepsBits_respond s _ _) fun _ => endsIn_bitCommand (keepsBits_raise s) fun _ hin => ?_
  obtain ⟨m, e, hbits, -⟩ := writeBits_spec (v := data) hin
  rw [e]
  exact endsIn_complete rfl fun q hq => (hbits q).trans (by simp [hq])

theorem execAdds_keepsBits (nbits : BitVec 6) (data : Word) (s : State) : EndsIn (KeepsBits s) (execAdds nbits data s) := by
  refine endsIn_gated (keepsBits_respond s _ _) fun _ => endsIn_bitCommand (keepsBits_raise s) fun _ hin => ?_
  obtain ⟨m, e, hbits, -⟩ := writeSigned_spec (x := signedOf data) hin
  rw [e]
  exact endsIn_complete rfl fun q hq => (hbits q).trans (by simp [hq])

theorem exec_keepsBits {i : Instr} (hi : clearsBits i = false) (s : State) : EndsIn (KeepsBits s) (exec i s) := by
  cases i with
  | add nbits data => exact execAdd_keepsBits nbits data s
  | adds nbits data => exact execAdds_keepsBits nbits data s
  | stat | prst | uinit | read | reads | brd | wpos | plen | rpos | ulenr =>
    exact (exec_sameBuffer rfl s).mono fun _ h => h.keepsBits
  | pnew | bwr => nomatch hi

/-- Settles O29: ADD and ADDS write by OR, and the other commands in question do not write at all. -/
theorem onlyPnewAndBwrClearBits : Obligations.OnlyPnewAndBwrClearBits :=
  fun _ s _ h hi => (exec_keepsBits hi s).of_eq_next h

/-! ## An extent past the end of the buffer -/

/-- R44, R171: a bit command of a legal width whose extent of `k` bits does not fit has no effect but its overflow. -/
theorem gated_bitCommand_overflow {o : Cause} {p n k : Nat} {s : State} {e : Except Fault (Word × State)}
    (hf : s.fault = false) (hn : n ≤ 57) (hk : 0 < k) (hout : 8 * s.capacity.bytes < p + k) :
    gated s (bitCommand o p n k s e) = .next { s with fault := true, cause := o, answer := some ⟨.faulted, 0⟩ } := by
  have hin : ¬ s.inBounds p k := by
    unfold State.inBounds
    omega
  rw [gated_of_ready hf, bitCommand_overflow hn hin]
  rfl

/-- Settles O20. The extent of ADDS counts its sign bit, so it is never empty. -/
theorem packerPastTheEndOverflows : Obligations.PackerPastTheEndOverflows :=
  fun n _ _ hf hn => ⟨gated_bitCommand_overflow hf hn, gated_bitCommand_overflow (k := n.toNat + 1) hf hn (Nat.succ_pos _)⟩

/-- Settles O21. The extent of READS counts its sign bit, so it is never empty. -/
theorem readerPastTheEndOverflows : Obligations.ReaderPastTheEndOverflows :=
  fun n _ hf hn => ⟨gated_bitCommand_overflow hf hn, gated_bitCommand_overflow (k := n.toNat + 1) hf hn (Nat.succ_pos _)⟩

end Sys2Proof.Machine
end

section
/-! PROOFS. The little-endian view of consecutive bytes (20_memory.md R43): its bits, and the fields inside it. -/

namespace Sys2Proof.Machine

theorem Memory.wide_succ (m : Memory) (j k : Nat) :
    m.wide j (k + 1) = 2 ^ (8 * k) * (m.read (j + k)).toNat + m.wide j k := by
  rw [Memory.wide, Nat.add_comm, Nat.mul_comm]

theorem Memory.wide_lt (m : Memory) (j k : Nat) : m.wide j k < 2 ^ (8 * k) := by
  induction k with
  | zero => exact Nat.one_pos
  | succ k ih =>
    rw [Memory.wide_succ, Nat.mul_succ, Nat.pow_add, Nat.mul_comm (2 ^ (8 * k)) (2 ^ 8)]
    exact Nat.mul_add_lt_mul_of_lt_of_lt (m.read (j + k)).isLt ih

/-- The bits of one byte of the buffer, as its number has them. -/
theorem State.read_testBit (s : State) (a i : Nat) :
    (s.buf.read a).toNat.testBit i = (decide (i < 8) && s.bitAt (8 * a + i)) := by
  rw [BitVec.testBit_toNat]
  by_cases hi : i < 8
  · have hdiv : (8 * a + i) / 8 = a := by omega
    have hmod : (8 * a + i) % 8 = i := by omega
    simp [State.bitAt, hi, hdiv, hmod]
  · simp [BitVec.getLsbD_of_ge _ i (Nat.le_of_not_lt hi), hi]

/-- R43: bit q of the view is the buffer's bit 8j + q. -/
theorem State.wide_testBit (s : State) (j k q : Nat) :
    (s.buf.wide j k).testBit q = (decide (q < 8 * k) && s.bitAt (8 * j + q)) := by
  induction k with
  | zero => simp [Memory.wide]
  | succ k ih =>
    rw [Memory.wide_succ, Nat.testBit_two_pow_mul_add _ (Memory.wide_lt ..)]
    by_cases hq : q < 8 * k
    · have hq' : q < 8 * (k + 1) := by omega
      simp [ih, hq, hq']
    · have hpos : 8 * (j + k) + (q - 8 * k) = 8 * j + q := by omega
      have hlast : q - 8 * k < 8 ↔ q < 8 * (k + 1) := by omega
      simp [State.read_testBit, hq, hpos, hlast]

/-- R43: a shift right drops the bits before the field, the remainder the bits after it. -/
theorem State.wide_field_testBit (s : State) {j k p w : Nat} (hp : 8 * j ≤ p) (hw : p + w ≤ 8 * (j + k)) (i : Nat) :
    (s.buf.wide j k / 2 ^ (p - 8 * j) % 2 ^ w).testBit i = (decide (i < w) && s.bitAt (p + i)) := by
  rw [Nat.testBit_mod_two_pow, Nat.testBit_div_two_pow, State.wide_testBit]
  by_cases hi : i < w
  · have hpos : 8 * j + (i + (p - 8 * j)) = p + i := by omega
    have hlt : i + (p - 8 * j) < 8 * k := by omega
    simp [hi, hpos, hlt]
  · simp [hi]

/-- Settles O47. -/
theorem wideViewShowsFields : Obligations.WideViewShowsFields :=
  fun s j k => ⟨s.wide_testBit j k, fun _ _ i hp hw => s.wide_field_testBit hp hw i⟩

end Sys2Proof.Machine
end

section
/-! PROOFS. The decoder and the encoder are inverse to each other (30_encoding.md R61, R64 to R68): a word decodes exactly if it is
the word of a command, and then to that command, with the part of the operand that it reads taken from DATA. -/

namespace Sys2Proof

open Sys2Proof.Machine

/-! ## From the command to the word and back -/

/-- R64: the command with what it reads of the operand port taken from `data`. -/
def Instr.withOperand (data : Word) : Instr → Instr
  | .add n _ => .add n data
  | .adds n _ => .adds n data
  | .uinit _ => .uinit data
  | .bwr a _ => .bwr a (data.setWidth 8)
  | i => i

/-- R70: the encoder's operand is what the command carries of it. -/
theorem Instr.withOperand_encode (i : Instr) : i.withOperand (encode i).2 = i := by
  cases i with
  | bwr a b => exact congrArg (Instr.bwr a) (BitVec.setWidth_setWidth_of_le b (by decide))
  | stat | pnew | prst | add | adds | uinit | read | reads | brd | wpos | plen | rpos | ulenr => rfl

/-- R66, R68: the encoder's zeros are where the decoder asks for zero, so the word decodes whatever stands on the operand port. -/
theorem decode_encode_word (i : Instr) (data : Word) : decode (encode i).1 data = .command (i.withOperand data) := by
  cases i with
  | stat | pnew | prst | wpos | plen | rpos | ulenr => rfl
  | add | adds | uinit | read | reads | brd | bwr =>
    simp only [encode, decode, opField_commandWord, nbitsField_commandWord, addrField_commandWord]
    rfl

/-- Settles O9: the word brings back the opcode and the fields NBITS and ADDR, the operand what R64 says is read of it. -/
theorem encodedCommandDecodes : Obligations.EncodedCommandDecodes := fun i => by
  rw [decode_encode_word, Instr.withOperand_encode]

/-! ## From the word to the command and back -/

/-- R61: a word is determined by its three fields, the opcode given as a number. -/
theorem commandWord_eq_of_fields {cmd : CmdWord} {op : Nat} {n : BitVec 6} {a : BitVec 22} (hop : (opField cmd).toNat = op)
    (hn : nbitsField cmd = n) (ha : addrField cmd = a) : commandWord (BitVec.ofNat 4 op) n a = cmd := by
  rw [← hop, ← hn, ← ha, BitVec.ofNat_toNat, BitVec.setWidth_eq, commandWord_fields]

theorem decodePlain_eq_command {cmd : CmdWord} {op : Nat} {i j : Instr} (hop : (opField cmd).toNat = op)
    (h : decodePlain (nbitsField cmd) (addrField cmd) i = .command j) :
    i = j ∧ commandWord (BitVec.ofNat 4 op) 0 0 = cmd := by
  unfold decodePlain at h
  split_ifs at h with hn ha
  exact ⟨Decoded.command.inj h, commandWord_eq_of_fields hop (not_not.1 hn) (not_not.1 ha)⟩

theorem decodeBits_eq_command {cmd : CmdWord} {op : Nat} {i j : Instr} (hop : (opField cmd).toNat = op)
    (h : decodeBits (addrField cmd) i = .command j) :
    i = j ∧ commandWord (BitVec.ofNat 4 op) (nbitsField cmd) 0 = cmd := by
  unfold decodeBits at h
  split_ifs at h with ha
  exact ⟨Decoded.command.inj h, commandWord_eq_of_fields hop rfl (not_not.1 ha)⟩

theorem decodeByte_eq_command {cmd : CmdWord} {op : Nat} {i j : Instr} (hop : (opField cmd).toNat = op)
    (h : decodeByte (nbitsField cmd) i = .command j) :
    i = j ∧ commandWord (BitVec.ofNat 4 op) 0 (addrField cmd) = cmd := by
  unfold decodeByte at h
  split_ifs at h with hn
  exact ⟨Decoded.command.inj h, commandWord_eq_of_fields hop (not_not.1 hn) rfl⟩

/-- R66, R68: each arm of the decoder asks for zero in the fields that its command's word has zero. -/
theorem encode_word_of_decode {cmd : CmdWord} {data : Word} {i : Instr} (h : decode cmd data = .command i) :
    (encode i).1 = cmd := by
  unfold decode at h
  split at h
  case h_1 hop | h_2 hop | h_3 hop | h_6 hop | h_11 hop | h_12 hop | h_13 hop | h_14 hop =>
    obtain ⟨rfl, hword⟩ := decodePlain_eq_command hop h
    exact hword
  case h_4 hop | h_5 hop | h_7 hop | h_8 hop =>
    obtain ⟨rfl, hword⟩ := decodeBits_eq_command hop h
    exact hword
  case h_9 hop | h_10 hop =>
    obtain ⟨rfl, hword⟩ := decodeByte_eq_command hop h
    exact hword
  case h_15 => nomatch h

/-- Settles O10. The encoder's operand need not be `data`, but the decoder reads the same of it. -/
theorem decodedWordReencodes : Obligations.DecodedWordReencodes := fun cmd _ i h => by
  obtain rfl : (encode i).1 = cmd := encode_word_of_decode h
  exact ⟨rfl, encodedCommandDecodes i⟩

/-- R68: whether a word decodes does not depend on the operand. -/
theorem exists_decode_iff (cmd : CmdWord) (data : Word) :
    (∃ i, decode cmd data = .command i) ↔ ∃ i, (encode i).1 = cmd := by
  refine ⟨fun ⟨i, h⟩ => ⟨i, encode_word_of_decode h⟩, ?_⟩
  rintro ⟨i, rfl⟩
  exact ⟨_, decode_encode_word i data⟩

/-- Settles O13: eighteen words, each decoded. -/
theorem specWordsDecode : Obligations.SpecWordsDecode := by
  unfold Obligations.SpecWordsDecode
  decide

/-! ## The operand port -/

/-- R64: operands of which every command with this word reads the same have the same outcome. -/
theorem serveCommand_congr_operand {cmd : CmdWord} {d d' : Word}
    (h : ∀ i, (encode i).1 = cmd → i.withOperand d = i.withOperand d') (s : State) :
    serveCommand cmd d s = serveCommand cmd d' s := by
  by_cases hcmd : ∃ i, (encode i).1 = cmd
  · obtain ⟨i, rfl⟩ := hcmd
    rw [serveCommand_of_command (decode_encode_word i d), serveCommand_of_command (decode_encode_word i d'), h i rfl]
  · have illegal : ∀ data, serveCommand cmd data s = badCommand s := fun data => by
      cases hd : decode cmd data with
      | badCmd why => exact serveCommand_of_badCmd hd s
      | command i => exact absurd ⟨i, encode_word_of_decode hd⟩ hcmd
    rw [illegal d, illegal d']

/-- Settles O14: of the commands with the word, `withOperand` says which read the operand and how much of it. -/
theorem unusedOperandBitsAreIgnored : Obligations.UnusedOperandBitsAreIgnored := by
  refine fun cmd d d' s => ⟨fun hadd hadds huinit hbwr => ?_, fun hbwr hbyte => ?_⟩
  · refine serveCommand_congr_operand (fun i hi => ?_) s
    subst hi
    cases i with
    | add n v => exact absurd (opField_commandWord 0x3 n 0) hadd
    | adds n v => exact absurd (opField_commandWord 0x4 n 0) hadds
    | uinit l => exact absurd (opField_commandWord 0x5 0 0) huinit
    | bwr a b => exact absurd (opField_commandWord 0x9 0 a) hbwr
    | stat | pnew | prst | read | reads | brd | wpos | plen | rpos | ulenr => rfl
  · refine serveCommand_congr_operand (fun i hi => ?_) s
    subst hi
    cases i with
    | bwr a b => exact congrArg (Instr.bwr a) hbyte
    | stat | pnew | prst | uinit | wpos | plen | rpos | ulenr => nomatch hbwr
    | add | adds | read | reads | brd => simp [encode, opField_commandWord] at hbwr

end Sys2Proof
end

section
/-! PROOFS. The opcode map (30_encoding.md R66): its rows are those of the fourteen commands, a word matches a row exactly if it is
the word of a command, and the opcode alone tells the rows apart. -/

namespace Sys2Proof

open Sys2Proof.Laws

/-! ## The fields of a masked word -/

theorem opField_and (c m : CmdWord) : opField (c &&& m) = opField c &&& opField m := BitVec.extractLsb'_and

theorem nbitsField_and (c m : CmdWord) : nbitsField (c &&& m) = nbitsField c &&& nbitsField m := BitVec.extractLsb'_and

theorem addrField_and (c m : CmdWord) : addrField (c &&& m) = addrField c &&& addrField m := BitVec.extractLsb'_and

/-- R66: the mask of a command without fields keeps the whole word. -/
theorem eq_of_plainMask {cmd bits : CmdWord} (h : cmd &&& 0xFFFFFFFF = bits) : bits = cmd :=
  h.symm.trans BitVec.and_allOnes

/-- R66: the mask of a bit command keeps OP and ADDR. -/
theorem eq_of_bitsMask {cmd : CmdWord} {op : BitVec 4} (h : cmd &&& 0xFFFFFC0F = commandWord op 0 0) :
    commandWord op (nbitsField cmd) 0 = cmd := by
  have hop : opField cmd = op := by
    rw [← opField_commandWord op 0 0, ← h, opField_and]
    exact BitVec.and_allOnes.symm
  have haddr : addrField cmd = 0 := by
    rw [← addrField_commandWord op 0 0, ← h, addrField_and]
    exact BitVec.and_allOnes.symm
  rw [← hop, ← haddr, commandWord_fields]

/-- R66: the mask of a byte-access command keeps OP and NBITS. -/
theorem eq_of_byteMask {cmd : CmdWord} {op : BitVec 4} (h : cmd &&& 0x000003FF = commandWord op 0 0) :
    commandWord op 0 (addrField cmd) = cmd := by
  have hop : opField cmd = op := by
    rw [← opField_commandWord op 0 0, ← h, opField_and]
    exact BitVec.and_allOnes.symm
  have hnbits : nbitsField cmd = 0 := by
    rw [← nbitsField_commandWord op 0 0, ← h, nbitsField_and]
    exact BitVec.and_allOnes.symm
  rw [← hop, ← hnbits, commandWord_fields]

/-! ## The rows are those of the commands -/

/-- One command for each row, in the order of R65; the values of the fields do not matter to the row. -/
def rowCommands : List Instr :=
  [.stat, .pnew, .prst, .add 0 0, .adds 0 0, .uinit 0, .read 0, .reads 0, .brd 0, .bwr 0 0, .wpos, .plen, .rpos, .ulenr]

theorem opcodeTable_eq_map : opcodeTable = rowCommands.map MatchesRow.row := rfl

/-- The fourteen lemmas of Laws/PerInstr.lean as one. -/
theorem matchesRow (i : Instr) : MatchesRow.Statement i := by
  cases i with
  | stat => exact MatchesRow.stat
  | pnew => exact MatchesRow.pnew
  | prst => exact MatchesRow.prst
  | add n v => exact MatchesRow.add n v
  | adds n v => exact MatchesRow.adds n v
  | uinit l => exact MatchesRow.uinit l
  | read n => exact MatchesRow.read n
  | reads n => exact MatchesRow.reads n
  | brd a => exact MatchesRow.brd a
  | bwr a b => exact MatchesRow.bwr a b
  | wpos => exact MatchesRow.wpos
  | plen => exact MatchesRow.plen
  | rpos => exact MatchesRow.rpos
  | ulenr => exact MatchesRow.ulenr

/-- R66: a word that matches a command's row is that command's word, but for the fields the mask drops. -/
theorem exists_encode_of_matchesRow {cmd : CmdWord} {i : Instr}
    (h : cmd &&& (MatchesRow.row i).mask = (MatchesRow.row i).bits) : ∃ j, (encode j).1 = cmd := by
  cases i with
  | stat => exact ⟨.stat, eq_of_plainMask h⟩
  | pnew => exact ⟨.pnew, eq_of_plainMask h⟩
  | prst => exact ⟨.prst, eq_of_plainMask h⟩
  | add n v => exact ⟨.add (nbitsField cmd) v, eq_of_bitsMask h⟩
  | adds n v => exact ⟨.adds (nbitsField cmd) v, eq_of_bitsMask h⟩
  | uinit l => exact ⟨.uinit l, eq_of_plainMask h⟩
  | read n => exact ⟨.read (nbitsField cmd), eq_of_bitsMask h⟩
  | reads n => exact ⟨.reads (nbitsField cmd), eq_of_bitsMask h⟩
  | brd a => exact ⟨.brd (addrField cmd), eq_of_byteMask h⟩
  | bwr a b => exact ⟨.bwr (addrField cmd) b, eq_of_byteMask h⟩
  | wpos => exact ⟨.wpos, eq_of_plainMask h⟩
  | plen => exact ⟨.plen, eq_of_plainMask h⟩
  | rpos => exact ⟨.rpos, eq_of_plainMask h⟩
  | ulenr => exact ⟨.ulenr, eq_of_plainMask h⟩

/-- R66: the table's rows match exactly the words of the commands. -/
theorem exists_row_iff (cmd : CmdWord) :
    (∃ r ∈ opcodeTable, cmd &&& r.mask = r.bits) ↔ ∃ i, (encode i).1 = cmd := by
  constructor
  · rintro ⟨r, hr, hmatch⟩
    rw [opcodeTable_eq_map, List.mem_map] at hr
    obtain ⟨i, -, rfl⟩ := hr
    exact exists_encode_of_matchesRow hmatch
  · rintro ⟨i, rfl⟩
    exact ⟨MatchesRow.row i, matchesRow i⟩

/-- Settles O11: the words that decode and the words that match a row are both the words of the commands. -/
theorem decodeAcceptsExactlyTheTable : Obligations.DecodeAcceptsExactlyTheTable :=
  fun cmd data => (exists_decode_iff cmd data).trans (exists_row_iff cmd).symm

/-! ## No word matches two rows -/

/-- R66: no mask drops OP. -/
theorem opField_mask_of_mem {r : OpcodeRow} (hr : r ∈ opcodeTable) : opField r.mask = BitVec.allOnes 4 := by
  have all : ∀ r ∈ opcodeTable, opField r.mask = BitVec.allOnes 4 := by decide
  exact all r hr

theorem opField_of_matches {cmd : CmdWord} {r : OpcodeRow} (hr : r ∈ opcodeTable) (h : cmd &&& r.mask = r.bits) :
    opField r.bits = opField cmd := by
  rw [← h, opField_and, opField_mask_of_mem hr, BitVec.and_allOnes]

/-- R65: each opcode has one row. -/
theorem opcodeTable_row_unique : ∀ r ∈ opcodeTable, ∀ r' ∈ opcodeTable, opField r.bits = opField r'.bits → r = r' := by
  decide

/-- Settles O12: both rows have the word's opcode. -/
theorem opcodeRowsAreDisjoint : Obligations.OpcodeRowsAreDisjoint := fun _ r hr r' hr' h h' =>
  opcodeTable_row_unique r hr r' hr' ((opField_of_matches hr h).trans (opField_of_matches hr' h').symm)

end Sys2Proof
end

section
/-! PROOFS. The assembler (30_encoding.md R70, R71): the number that is the word of an accepted line, the lines rejected, and the
pseudo-instructions as the lines they expand to. -/

namespace Sys2Proof.Machine

/-! ## Accepted and rejected lines -/

theorem assemble_of_wf {l : AsmLine} (h : l.wf = true) : assemble l = some (expandLine l) := if_pos h

theorem assemble_of_not_wf {l : AsmLine} (h : l.wf = false) : assemble l = none := if_neg (by simp [h])

/-- R71: lines that are accepted alike and stand for the same command assemble alike. -/
theorem assemble_congr {l l' : AsmLine} (hwf : l.wf = l'.wf) (hexp : expandLine l = expandLine l') :
    assemble l = assemble l' := by
  rw [assemble, assemble, hwf, hexp]

theorem nbitsOk_iff (n : Int) : AsmLine.nbitsOk n = true ↔ 0 ≤ n ∧ n ≤ 63 := by simp [AsmLine.nbitsOk]

theorem addrOk_iff (a : Int) : AsmLine.addrOk a = true ↔ 0 ≤ a ∧ a < 4194304 := by simp [AsmLine.addrOk]

theorem signedOk_iff (v : Int) :
    AsmLine.signedOk v = true ↔ -9223372036854775808 ≤ v ∧ v < 9223372036854775808 := by simp [AsmLine.signedOk]

theorem lenOk_iff (v : Int) : AsmLine.lenOk v = true ↔ 0 ≤ v ∧ v < 18446744073709551616 := by
  simp [AsmLine.lenOk]

/-! ## The word as a number -/

/-- R61: CMD = OP + 16 * NBITS + 1024 * ADDR. -/
theorem commandWord_toNat (op : BitVec 4) (n : BitVec 6) (a : BitVec 22) :
    (commandWord op n a).toNat = op.toNat + 16 * n.toNat + 1024 * a.toNat := by
  have hop := op.isLt
  have hn := n.isLt
  rw [commandWord, BitVec.toNat_append, BitVec.toNat_append, ← Nat.shiftLeft_add_eq_or_of_lt n.isLt,
    ← Nat.shiftLeft_add_eq_or_of_lt op.isLt, Nat.shiftLeft_eq, Nat.shiftLeft_eq]
  omega

/-- R61, R70: the same for fields given as integers in their range. -/
theorem commandWord_ofInt (op : BitVec 4) {n a : Int} (hn : 0 ≤ n ∧ n ≤ 63) (ha : 0 ≤ a ∧ a < 4194304) :
    commandWord op (BitVec.ofInt 6 n) (BitVec.ofInt 22 a) = BitVec.ofInt 32 (op.toNat + 16 * n + 1024 * a) := by
  have hop := op.isLt
  refine BitVec.eq_of_toNat_eq ?_
  rw [commandWord_toNat, BitVec.toNat_ofInt, BitVec.toNat_ofInt, BitVec.toNat_ofInt]
  omega

theorem commandWord_ofInt_nbits (op : BitVec 4) {n : Int} (hn : 0 ≤ n ∧ n ≤ 63) :
    commandWord op (BitVec.ofInt 6 n) 0 = BitVec.ofInt 32 (op.toNat + 16 * n) := by
  simpa using commandWord_ofInt op hn (a := 0) (by decide)

theorem commandWord_ofInt_addr (op : BitVec 4) {a : Int} (ha : 0 ≤ a ∧ a < 4194304) :
    commandWord op 0 (BitVec.ofInt 22 a) = BitVec.ofInt 32 (op.toNat + 1024 * a) := by
  simpa using commandWord_ofInt op (n := 0) (by decide) ha

/-- R70: the byte of `bwr` on the operand port. -/
theorem setWidth_ofInt_byte {v : Int} (hv : 0 ≤ v ∧ v ≤ 255) : (BitVec.ofInt 8 v).setWidth 64 = BitVec.ofInt 64 v := by
  refine BitVec.eq_of_toNat_eq ?_
  rw [BitVec.toNat_setWidth, BitVec.toNat_ofInt, BitVec.toNat_ofInt]
  omega

/-- Settles O48: each line is accepted, and its word's fields are the line's numbers. -/
theorem assemblerEncodesLines : Obligations.AssemblerEncodesLines := by
  intro n a v
  refine ⟨fun h0 h63 => ?_, fun h0 h22 => ?_, fun h0 h64 => ?_⟩
  · have hn : AsmLine.nbitsOk n = true := (nbitsOk_iff n).2 ⟨h0, h63⟩
    have word (op : BitVec 4) := commandWord_ofInt_nbits op ⟨h0, h63⟩
    refine ⟨?_, fun hlo hhi => ?_, ?_, ?_⟩
    · rw [assemble_of_wf (l := .add n v) hn]
      exact congrArg (fun w => some (w, BitVec.ofInt 64 v)) (word 3)
    · have hv : AsmLine.signedOk v = true := (signedOk_iff v).2 ⟨hlo, hhi⟩
      rw [assemble_of_wf (l := .adds n v) (Bool.and_eq_true_iff.2 ⟨hn, hv⟩)]
      exact congrArg (fun w => some (w, BitVec.ofInt 64 v)) (word 4)
    · rw [assemble_of_wf (l := .read n) hn]
      exact congrArg (fun w => some (w, 0)) (word 6)
    · rw [assemble_of_wf (l := .reads n) hn]
      exact congrArg (fun w => some (w, 0)) (word 7)
  · have ha : AsmLine.addrOk a = true := (addrOk_iff a).2 ⟨h0, h22⟩
    have word (op : BitVec 4) := commandWord_ofInt_addr op ⟨h0, h22⟩
    refine ⟨?_, fun hlo hhi => ?_⟩
    · rw [assemble_of_wf (l := .brd a) ha]
      exact congrArg (fun w => some (w, 0)) (word 8)
    · rw [assemble_of_wf (l := .bwr a v) (by simp [AsmLine.wf, ha, hlo, hhi])]
      exact congrArg some (Prod.ext (word 9) (setWidth_ofInt_byte ⟨hlo, hhi⟩))
  · rw [assemble_of_wf (l := .uinit v) ((lenOk_iff v).2 ⟨h0, h64⟩)]
    rfl

/-! ## Rejections and pseudo-instructions -/

theorem nbitsOk_eq_false {n : Int} (h : n < 0 ∨ 63 < n) : AsmLine.nbitsOk n = false :=
  Bool.eq_false_iff.2 fun hok => by
    have := (nbitsOk_iff n).1 hok
    omega

theorem addrOk_eq_false {a : Int} (h : a < 0 ∨ 4194304 ≤ a) : AsmLine.addrOk a = false :=
  Bool.eq_false_iff.2 fun hok => by
    have := (addrOk_iff a).1 hok
    omega

/-- R70: a width out of range. -/
theorem assemble_of_bad_nbits {n : Int} (h : n < 0 ∨ 63 < n) (v : Int) :
    assemble (.add n v) = none ∧ assemble (.adds n v) = none ∧ assemble (.read n) = none ∧ assemble (.reads n) = none := by
  have hn := nbitsOk_eq_false h
  exact ⟨assemble_of_not_wf hn, assemble_of_not_wf (by rw [AsmLine.wf, hn, Bool.false_and]), assemble_of_not_wf hn,
    assemble_of_not_wf hn⟩

/-- R70: an address out of range. -/
theorem assemble_of_bad_addr {a : Int} (h : a < 0 ∨ 4194304 ≤ a) (v : Int) :
    assemble (.brd a) = none ∧ assemble (.bwr a v) = none := by
  have ha := addrOk_eq_false h
  exact ⟨assemble_of_not_wf ha, assemble_of_not_wf (by rw [AsmLine.wf, ha, Bool.false_and])⟩

/-- R70: a byte out of range. -/
theorem assemble_of_bad_byte {v : Int} (h : v < 0 ∨ 255 < v) (a : Int) : assemble (.bwr a v) = none := by
  have hv : (decide (0 ≤ v) && decide (v ≤ 255)) = false := by
    rw [Bool.and_eq_false_iff, decide_eq_false_iff_not, decide_eq_false_iff_not]
    omega
  exact assemble_of_not_wf (by rw [AsmLine.wf, hv, Bool.and_false])

/-- R71: `put` and `get`. A descriptor's widths are among those that `add` and `read` accept. -/
theorem assemble_put_get {w : Nat} (hlo : 1 ≤ w) (hhi : w ≤ 57) (v : Int) :
    assemble (.put ⟨w, false⟩ v) = assemble (.add w v) ∧ assemble (.put ⟨w, true⟩ v) = assemble (.adds w v) ∧
    assemble (.get ⟨w, false⟩) = assemble (.read w) ∧ assemble (.get ⟨w, true⟩) = assemble (.reads w) := by
  have hd (signed : Bool) : (⟨w, signed⟩ : Descriptor).wf = true := by simp [Descriptor.wf, Config.maxWidth, hlo, hhi]
  have hn : AsmLine.nbitsOk w = true := (nbitsOk_iff w).2 (by omega)
  refine ⟨assemble_congr ?_ ?_, assemble_congr ?_ ?_, assemble_congr ?_ ?_, assemble_congr ?_ ?_⟩
  all_goals simp [AsmLine.wf, expandLine, hd, hn]

/-- R71: `skip`. -/
theorem assemble_skip {n : Int} (hlo : 0 ≤ n) (hhi : n ≤ 57) : assemble (.skip n) = assemble (.read n) := by
  have hn : AsmLine.nbitsOk n = true := (nbitsOk_iff n).2 ⟨hlo, by omega⟩
  exact assemble_congr (by simp [AsmLine.wf, hn, hlo, hhi]) rfl

/-- R71: `bzero`. -/
theorem assemble_bzero (a : Int) : assemble (.bzero a) = assemble (.bwr a 0) :=
  assemble_congr (by simp [AsmLine.wf]) rfl

/-- Settles O49: the rejected ranges of R70 and the expansions of R71, line by line. -/
theorem assemblerRejectsAndExpands : Obligations.AssemblerRejectsAndExpands :=
  ⟨fun _ v h => assemble_of_bad_nbits h v, fun _ v h => assemble_of_bad_addr h v, fun a _ h => assemble_of_bad_byte h a,
    fun _ v hlo hhi => assemble_put_get hlo hhi v, fun _ hlo hhi => assemble_skip hlo hhi, assemble_bzero, rfl⟩

end Sys2Proof.Machine
end

section
/-! PROOFS. What one command word does, as the host sees it (30_encoding.md R60; 60_exceptions.md R170 to R175): the step is the
decoded command's, or the illegal word's answer, and the answer's code tells whether it executed, faulted or was rejected. -/

namespace Sys2Proof.Machine

/-! ## The step on a command word -/

/-- Settles O5: `step` serves the list's first action, and `serveCommand` runs the command that its word decodes to. -/
theorem stepRunsDecodedCommand : Obligations.StepRunsDecodedCommand := fun s cmd data rest i hp hd => by
  rw [step_action hp, serve_command, serveCommand_of_command hd]
  rfl

/-- R174: the two answers to a word that does not decode. -/
theorem badCommand_eq (s : State) :
    badCommand s = .next (if s.fault then s.respond .rejected 0 else (s.setFault .badCmd).respond .faulted 0) := by
  cases hf : s.fault with
  | true => exact badCommand_of_fault hf
  | false => exact badCommand_of_ready hf

/-- Settles O6: as O5, with `badCommand` for the word that does not decode. -/
theorem stepAnswersIllegalWord : Obligations.StepAnswersIllegalWord := fun s cmd data rest why hp hd => by
  rw [step_action hp, serve_command, serveCommand_of_badCmd hd, badCommand_eq]
  rfl

/-- R175: BAD_WIDTH is the first check, so it does not depend on the extent. -/
theorem gated_bitCommand_badWidth {s : State} {n : Nat} (hf : s.fault = false) (hn : 57 < n) (o : Cause) (p k : Nat)
    (e : Except Fault (Word × State)) :
    gated s (bitCommand o p n k s e) = .next { s with fault := true, cause := .badWidth, answer := some ⟨.faulted, 0⟩ } := by
  rw [gated_of_ready hf, bitCommand_badWidth hn]
  rfl

/-- Settles O19: the four commands are `bitCommand` behind the gate. -/
theorem wideFieldRaisesBadWidth : Obligations.WideFieldRaisesBadWidth := by
  intro n data s hf hn i hi
  simp only [List.mem_cons, List.not_mem_nil, or_false] at hi
  obtain rfl | rfl | rfl | rfl := hi
  all_goals exact gated_bitCommand_badWidth hf hn ..

/-! ## The three answers -/

/-- R60: the three ways a command is answered, from the state `s` to the next state; `q` says whether the command is a query. -/
inductive Answers (s : State) (q : Bool) : State → Prop
  /-- R174: the block was faulted and the command is no query. -/
  | rejected (hf : s.fault = true) (hq : q = false) : Answers s q (s.respond .rejected 0)
  /-- R171: the command raises a fault. -/
  | faulted (hf : s.fault = false) (c : Cause) : Answers s q ((s.setFault c).respond .faulted 0)
  /-- R174: the command executes, which leaves FAULT and CAUSE alone. -/
  | ok (t : State) (hrun : s.fault = true → q = true) (hfault : t.fault = s.fault) (hcause : t.cause = s.cause) (x : Word) :
    Answers s q (t.respond .ok x)

section
variable {s : State} {q : Bool}

theorem answers_query (hq : q = true) (x : Word) : EndsIn (Answers s q) (query s x) :=
  endsIn_query (.ok s (fun _ => hq) rfl rfl x)

theorem answers_gated {r : Result} (hq : q = false) (hr : s.fault = false → EndsIn (Answers s q) r) :
    EndsIn (Answers s q) (gated s r) := by
  cases hf : s.fault with
  | true =>
    rw [gated_of_fault hf]
    exact endsIn_next (.rejected hf hq)
  | false =>
    rw [gated_of_ready hf]
    exact hr hf

theorem answers_raise (hf : s.fault = false) (c : Cause) : EndsIn (Answers s q) (raise c s) :=
  endsIn_raise (.faulted hf c)

theorem answers_complete (hf : s.fault = false) {e : Except Fault (Word × State)} {x : Word} {t : State} (he : e = .ok (x, t))
    (hfault : t.fault = s.fault) (hcause : t.cause = s.cause) : EndsIn (Answers s q) (complete e) :=
  endsIn_complete he (.ok t (fun h => absurd h (by simp [hf])) hfault hcause x)

theorem answers_bitCommand (hf : s.fault = false) {o : Cause} {p n k : Nat} {e : Except Fault (Word × State)}
    (heffect : n ≤ 57 → s.inBounds p k → EndsIn (Answers s q) (complete e)) :
    EndsIn (Answers s q) (bitCommand o p n k s e) :=
  endsIn_bitCommand (.faulted hf) heffect

end

theorem badCommand_answers (s : State) : EndsIn (Answers s false) (badCommand s) :=
  answers_gated rfl fun hf => answers_raise hf .badCmd

theorem execPnew_answers (s : State) : EndsIn (Answers s false) (execPnew s) := by
  refine answers_gated rfl fun hf => ?_
  obtain ⟨m, e, -⟩ := clearFrom_spec s.capacity.bytes 0 s (by omega)
  rw [e]
  exact answers_complete hf rfl rfl rfl

theorem execPrst_answers (s : State) : EndsIn (Answers s false) (execPrst s) :=
  answers_gated rfl fun hf => answers_complete hf rfl rfl rfl

theorem execAdd_answers (nbits : BitVec 6) (data : Word) (s : State) : EndsIn (Answers s false) (execAdd nbits data s) := by
  refine answers_gated rfl fun hf => answers_bitCommand hf fun _ hin => ?_
  obtain ⟨m, e, -⟩ := writeBits_spec (v := data) hin
  rw [e]
  exact answers_complete hf rfl rfl rfl

theorem execAdds_answers (nbits : BitVec 6) (data : Word) (s : State) :
    EndsIn (Answers s false) (execAdds nbits data s) := by
  refine answers_gated rfl fun hf => answers_bitCommand hf fun _ hin => ?_
  obtain ⟨m, e, -⟩ := writeSigned_spec (x := signedOf data) hin
  rw [e]
  exact answers_complete hf rfl rfl rfl

theorem execUinit_answers (len : Word) (s : State) : EndsIn (Answers s false) (execUinit len s) := by
  refine answers_gated rfl fun hf => ?_
  split
  · exact answers_raise hf .badLen
  · exact answers_complete hf rfl rfl rfl

theorem execRead_answers (nbits : BitVec 6) (s : State) : EndsIn (Answers s false) (execRead nbits s) := by
  refine answers_gated rfl fun hf => answers_bitCommand hf fun hn hin => ?_
  obtain ⟨x, e, -⟩ := readBits_spec (by omega) hin
  exact answers_complete hf e rfl rfl

theorem execReads_answers (nbits : BitVec 6) (s : State) : EndsIn (Answers s false) (execReads nbits s) := by
  refine answers_gated rfl fun hf => answers_bitCommand hf fun hn hin => ?_
  obtain ⟨m, -, e⟩ := readSigned_spec (by omega) hin
  exact answers_complete hf e rfl rfl

theorem execBrd_answers (addr : BitVec 22) (s : State) : EndsIn (Answers s false) (execBrd addr s) := by
  refine answers_gated rfl fun hf => ?_
  split
  · exact answers_raise hf .badAddr
  · next h =>
    rw [memRead_of_lt (Nat.lt_of_not_le h)]
    exact answers_complete hf rfl rfl rfl

theorem execBwr_answers (addr : BitVec 22) (byte : Byte) (s : State) : EndsIn (Answers s false) (execBwr addr byte s) := by
  refine answers_gated rfl fun hf => ?_
  split
  · exact answers_raise hf .badAddr
  · next h =>
    rw [memWrite_of_lt byte (Nat.lt_of_not_le h)]
    exact answers_complete hf rfl rfl rfl

theorem exec_answers (i : Instr) (s : State) : EndsIn (Answers s (isQuery i)) (exec i s) := by
  cases i with
  | stat | wpos | plen | rpos | ulenr => exact answers_query rfl _
  | pnew => exact execPnew_answers s
  | prst => exact execPrst_answers s
  | add nbits data => exact execAdd_answers nbits data s
  | adds nbits data => exact execAdds_answers nbits data s
  | uinit len => exact execUinit_answers len s
  | read nbits => exact execRead_answers nbits s
  | reads nbits => exact execReads_answers nbits s
  | brd addr => exact execBrd_answers addr s
  | bwr addr byte => exact execBwr_answers addr byte s

/-! ## The answer to a command word -/

/-- R174: the word is a query's. -/
def isQueryWord : Decoded → Bool
  | .command i => isQuery i
  | .badCmd _ => false

theorem isQueryWord_eq_false_iff (d : Decoded) : isQueryWord d = false ↔ ∀ i, d = .command i → isQuery i = false := by
  cases d <;> simp [isQueryWord]

theorem serveCommand_answers (cmd : CmdWord) (data : Word) (s : State) :
    EndsIn (Answers s (isQueryWord (decode cmd data))) (serveCommand cmd data s) := by
  cases hd : decode cmd data with
  | badCmd why =>
    rw [serveCommand_of_badCmd hd]
    exact badCommand_answers s
  | command i =>
    rw [serveCommand_of_command hd]
    exact exec_answers i s

/-- Settles O55: each of the three answers meets the clauses of its own code and refutes those of the other two. -/
theorem responseCodeTellsTheOutcome : Obligations.ResponseCodeTellsTheOutcome := by
  intro cmd data s
  rw [← isQueryWord_eq_false_iff]
  obtain ⟨t, ht, hans⟩ := serveCommand_answers cmd data s
  cases hans with
  | rejected hf hq =>
    have hrej : s.fault = true ∧ isQueryWord (decode cmd data) = false := ⟨hf, hq⟩
    exact ⟨_, _, ht, rfl, iff_of_true rfl hrej, iff_of_false (by decide) fun ⟨hready, _⟩ => by simp [hf] at hready,
      iff_of_false (by decide) fun ⟨hran, _⟩ => hran hrej, fun _ => ⟨rfl, rfl⟩, fun h => absurd h (by decide), fun _ => rfl⟩
  | faulted hf c =>
    have hraised : true ≠ s.fault := by simp [hf]
    exact ⟨_, _, ht, rfl, iff_of_false (by decide) fun ⟨hfaulty, _⟩ => hraised hfaulty.symm, iff_of_true rfl ⟨hf, rfl⟩,
      iff_of_false (by decide) fun ⟨_, hkept⟩ => hraised hkept, fun h => absurd h (by decide), fun _ => ⟨rfl, rfl⟩,
      fun h => absurd h (by decide)⟩
  | ok t hrun hfault hcause x =>
    have hran : ¬ (s.fault = true ∧ isQueryWord (decode cmd data) = false) := fun ⟨hf, hq⟩ => by simp [hrun hf] at hq
    have hkept : ¬ (s.fault = false ∧ t.fault = true) := fun ⟨hf, hraised⟩ => by simp [hfault, hf] at hraised
    have hne2 : Resp.ok.code ≠ 2 := by decide
    have hne1 : Resp.ok.code ≠ 1 := by decide
    exact ⟨_, _, ht, rfl, iff_of_false hne2 hran, iff_of_false hne1 hkept, iff_of_true rfl ⟨hran, hfault⟩,
      fun h => absurd h hne2, fun h => absurd h hne1, fun _ => hcause⟩

end Sys2Proof.Machine
end

section
/-! PROOFS. The two cursors (40_cursor.md R80 to R87): positions and cursors are the same thing, a bit command that answers OK moves
its cursor by the bits it handles, and nothing but PNEW, PRST and UINIT moves one back. -/

namespace Sys2Proof.Machine

/-! ## Positions and cursors -/

theorem Cursor.dec_pos (c : Cursor) : Cursor.dec c.pos = c :=
  Cursor.eq_of_pos_eq (Cursor.pos_dec_of_lt c.pos_lt)

/-- R81: the order of positions is the lexicographic order of cursors, because a bit offset is below 8. -/
theorem Cursor.pos_lt_pos_iff (c d : Cursor) :
    c.pos < d.pos ↔ c.byte.toNat < d.byte.toNat ∨ (c.byte.toNat = d.byte.toNat ∧ c.bit.toNat < d.bit.toNat) := by
  have hc := c.bit.isLt
  have hd := d.bit.isLt
  unfold Cursor.pos
  omega

/-- Settles O45. -/
theorem positionAndCursorAreInverse : Obligations.PositionAndCursorAreInverse :=
  ⟨Cursor.dec_pos, fun _ => Cursor.pos_dec_of_lt, Cursor.pos_lt_pos_iff⟩

/-! ## The bit commands -/

/-- Where a bit command with an extent of `k` bits leaves its cursor `c` in the next state `t`: at `c` if the command was rejected
or faulted (R171, R174), else `k` bits further, with no wrap (R82). -/
def AdvancesBy (k : Nat) (c : Cursor) (t : State) (c' : Cursor) : Prop :=
  (t.fault = true ∧ c' = c) ∨ (c' = c.adv k ∧ c'.pos = c.pos + k)

theorem AdvancesBy.pos_le {k : Nat} {c c' : Cursor} {t : State} (h : AdvancesBy k c t c') : c.pos ≤ c'.pos := by
  obtain ⟨-, rfl⟩ | ⟨-, hpos⟩ := h
  · exact le_rfl
  · omega

theorem AdvancesBy.of_ok {k : Nat} {c c' : Cursor} {t : State} (h : AdvancesBy k c t c') (ht : t.fault = false) :
    c' = Cursor.dec (c.pos + k) ∧ c'.pos = c.pos + k := by
  obtain ⟨hfault, -⟩ | hmoved := h
  · simp [ht] at hfault
  · exact hmoved

/-- R86: an extent in bounds ends below the highest position, so the cursor does not wrap. -/
theorem AdvancesBy.of_inBounds {k : Nat} {c : Cursor} {s t : State} (h : s.inBounds c.pos k) : AdvancesBy k c t (c.adv k) :=
  .inr ⟨rfl, Cursor.pos_adv_of_lt (s.inBounds_lt h c.pos_lt)⟩

/-- R174, R175: a bit command has its effect in bounds, or it ends in a faulted state with both cursors as they were. -/
theorem endsIn_gated_bitCommand {P : State → Prop} {o : Cause} {p n k : Nat} {s : State} {e : Except Fault (Word × State)}
    (hstop : ∀ t, t.fault = true → t.w = s.w → t.u = s.u → P t)
    (heffect : n ≤ 57 → s.inBounds p k → EndsIn P (complete e)) : EndsIn P (gated s (bitCommand o p n k s e)) := by
  cases hf : s.fault with
  | true =>
    rw [gated_of_fault hf]
    exact endsIn_next (hstop _ hf rfl rfl)
  | false =>
    rw [gated_of_ready hf]
    exact endsIn_bitCommand (fun _ => hstop _ rfl rfl rfl) heffect

theorem execAdd_advances (nbits : BitVec 6) (data : Word) (s : State) :
    EndsIn (fun t => t.u = s.u ∧ AdvancesBy nbits.toNat s.w t t.w) (execAdd nbits data s) := by
  refine endsIn_gated_bitCommand (fun t hf hw hu => ⟨hu, .inl ⟨hf, hw⟩⟩) fun _ hin => ?_
  obtain ⟨m, e, -⟩ := writeBits_spec (v := data) hin
  rw [e]
  exact endsIn_complete rfl ⟨rfl, .of_inBounds hin⟩

theorem execAdds_advances (nbits : BitVec 6) (data : Word) (s : State) :
    EndsIn (fun t => t.u = s.u ∧ AdvancesBy (nbits.toNat + 1) s.w t t.w) (execAdds nbits data s) := by
  refine endsIn_gated_bitCommand (fun t hf hw hu => ⟨hu, .inl ⟨hf, hw⟩⟩) fun _ hin => ?_
  obtain ⟨m, e, -⟩ := writeSigned_spec (x := signedOf data) hin
  rw [e]
  exact endsIn_complete rfl ⟨rfl, .of_inBounds hin⟩

theorem execRead_advances (nbits : BitVec 6) (s : State) :
    EndsIn (fun t => t.w = s.w ∧ AdvancesBy nbits.toNat s.u t t.u) (execRead nbits s) := by
  refine endsIn_gated_bitCommand (fun t hf hw hu => ⟨hw, .inl ⟨hf, hu⟩⟩) fun hn hin => ?_
  obtain ⟨x, e, -⟩ := readBits_spec (by omega) hin
  exact endsIn_complete e ⟨rfl, .of_inBounds hin⟩

theorem execReads_advances (nbits : BitVec 6) (s : State) :
    EndsIn (fun t => t.w = s.w ∧ AdvancesBy (nbits.toNat + 1) s.u t t.u) (execReads nbits s) := by
  refine endsIn_gated_bitCommand (fun t hf hw hu => ⟨hw, .inl ⟨hf, hu⟩⟩) fun hn hin => ?_
  obtain ⟨m, -, e⟩ := readSigned_spec (by omega) hin
  exact endsIn_complete e ⟨rfl, .of_inBounds hin⟩

/-- Settles O38: an answer OK leaves FAULT = 0, so the cursor is the one the effect leaves. -/
theorem bitCommandsAdvanceTheirCursor : Obligations.BitCommandsAdvanceTheirCursor := fun n data s _ _ ht =>
  ⟨fun h => ((execAdd_advances n data s).of_eq_next h).2.of_ok ht,
    fun h => ((execAdds_advances n data s).of_eq_next h).2.of_ok ht,
    fun h => ((execRead_advances n s).of_eq_next h).2.of_ok ht,
    fun h => ((execReads_advances n s).of_eq_next h).2.of_ok ht⟩

/-! ## Moving back -/

/-- R87, R121: a cursor that `i` moves back is moved to the origin, and `i` is one of the commands that may do so. -/
def BackOnlyToOrigin (i : Instr) (s t : State) : Prop :=
  (t.w.pos < s.w.pos → (i = .pnew ∨ i = .prst) ∧ t.w = ⟨0, 0⟩) ∧ (t.u.pos < s.u.pos → (∃ len, i = .uinit len) ∧ t.u = ⟨0, 0⟩)

theorem BackOnlyToOrigin.of_pos_le {i : Instr} {s t : State} (hw : s.w.pos ≤ t.w.pos) (hu : s.u.pos ≤ t.u.pos) :
    BackOnlyToOrigin i s t :=
  ⟨fun h => absurd h hw.not_gt, fun h => absurd h hu.not_gt⟩

theorem BackOnlyToOrigin.of_same {i : Instr} {s t : State} (hw : t.w = s.w) (hu : t.u = s.u) : BackOnlyToOrigin i s t :=
  .of_pos_le (hw ▸ le_rfl) (hu ▸ le_rfl)

theorem BackOnlyToOrigin.of_w_origin {i : Instr} {s t : State} (hi : i = .pnew ∨ i = .prst) (hw : t.w = ⟨0, 0⟩)
    (hu : t.u = s.u) : BackOnlyToOrigin i s t :=
  ⟨fun _ => ⟨hi, hw⟩, fun h => absurd h (hu ▸ Nat.lt_irrefl _)⟩

theorem BackOnlyToOrigin.of_u_origin {len : Word} {s t : State} (hw : t.w = s.w) (hu : t.u = ⟨0, 0⟩) :
    BackOnlyToOrigin (.uinit len) s t :=
  ⟨fun h => absurd h (hw ▸ Nat.lt_irrefl _), fun _ => ⟨⟨len, rfl⟩, hu⟩⟩

theorem backOnlyToOrigin_respond (i : Instr) (s : State) (r : Resp) (x : Word) : BackOnlyToOrigin i s (s.respond r x) :=
  .of_same rfl rfl

theorem backOnlyToOrigin_raise (i : Instr) (s : State) (c : Cause) :
    BackOnlyToOrigin i s ((s.setFault c).respond .faulted 0) :=
  .of_same rfl rfl

theorem execPnew_backOnlyToOrigin (s : State) : EndsIn (BackOnlyToOrigin .pnew s) (execPnew s) := by
  refine endsIn_gated (backOnlyToOrigin_respond ..) fun _ => ?_
  obtain ⟨m, e, -⟩ := clearFrom_spec s.capacity.bytes 0 s (by omega)
  rw [e]
  exact endsIn_complete rfl (.of_w_origin (.inl rfl) rfl rfl)

theorem execPrst_backOnlyToOrigin (s : State) : EndsIn (BackOnlyToOrigin .prst s) (execPrst s) :=
  endsIn_gated (backOnlyToOrigin_respond ..) fun _ => endsIn_complete rfl (.of_w_origin (.inr rfl) rfl rfl)

theorem execUinit_backOnlyToOrigin (len : Word) (s : State) : EndsIn (BackOnlyToOrigin (.uinit len) s) (execUinit len s) := by
  refine endsIn_gated (backOnlyToOrigin_respond ..) fun _ => ?_
  split
  · exact endsIn_raise (backOnlyToOrigin_raise ..)
  · exact endsIn_complete rfl (.of_u_origin rfl rfl)

theorem execBrd_backOnlyToOrigin (addr : BitVec 22) (s : State) : EndsIn (BackOnlyToOrigin (.brd addr) s) (execBrd addr s) := by
  refine endsIn_gated (backOnlyToOrigin_respond ..) fun _ => ?_
  split
  · exact endsIn_raise (backOnlyToOrigin_raise ..)
  · next h =>
    rw [memRead_of_lt (Nat.lt_of_not_le h)]
    exact endsIn_complete rfl (.of_same rfl rfl)

theorem execBwr_backOnlyToOrigin (addr : BitVec 22) (byte : Byte) (s : State) :
    EndsIn (BackOnlyToOrigin (.bwr addr byte) s) (execBwr addr byte s) := by
  refine endsIn_gated (backOnlyToOrigin_respond ..) fun _ => ?_
  split
  · exact endsIn_raise (backOnlyToOrigin_raise ..)
  · next h =>
    rw [memWrite_of_lt byte (Nat.lt_of_not_le h)]
    exact endsIn_complete rfl (.of_same rfl rfl)

theorem exec_backOnlyToOrigin (i : Instr) (s : State) : EndsIn (BackOnlyToOrigin i s) (exec i s) := by
  cases i with
  | stat | wpos | plen | rpos | ulenr => exact endsIn_query (backOnlyToOrigin_respond ..)
  | pnew => exact execPnew_backOnlyToOrigin s
  | prst => exact execPrst_backOnlyToOrigin s
  | uinit len => exact execUinit_backOnlyToOrigin len s
  | brd addr => exact execBrd_backOnlyToOrigin addr s
  | bwr addr byte => exact execBwr_backOnlyToOrigin addr byte s
  | add nbits data => exact (execAdd_advances nbits data s).mono fun _ ⟨hu, hw⟩ => .of_pos_le hw.pos_le (hu ▸ le_rfl)
  | adds nbits data => exact (execAdds_advances nbits data s).mono fun _ ⟨hu, hw⟩ => .of_pos_le hw.pos_le (hu ▸ le_rfl)
  | read nbits => exact (execRead_advances nbits s).mono fun _ ⟨hw, hu⟩ => .of_pos_le (hw ▸ le_rfl) hu.pos_le
  | reads nbits => exact (execReads_advances nbits s).mono fun _ ⟨hw, hu⟩ => .of_pos_le (hw ▸ le_rfl) hu.pos_le

/-- Settles O37: the bit commands only advance, UINIT, PNEW and PRST go to the origin, and no other command moves a cursor. -/
theorem cursorsMoveBackOnlyToOrigin : Obligations.CursorsMoveBackOnlyToOrigin :=
  fun i s _ h => (exec_backOnlyToOrigin i s).of_eq_next h

end Sys2Proof.Machine
end

section
/-! PROOFS. The chunks of an operation (40_cursor.md R84, R85): WriteBits and ReadBits run exactly these (R89, R90), and of an operand
WriteBits takes only as many bits as they have (R96). -/

namespace Sys2Proof.Machine

/-! ## The split -/

/-- The recursion of the chunk split, as an induction principle: no bits have no chunk, and otherwise a chunk up to the end of its
byte comes first. -/
theorem chunksFrom_induction {motive : Nat → Nat → List Chunk → Prop} (nil : ∀ p, motive p 0 [])
    (cons : ∀ p n k cs, 0 < n → k = min n (8 - p % 8) → motive (p + k) (n - k) cs →
      motive p n (⟨p / 8, p % 8, k⟩ :: cs)) :
    ∀ fuel p n, n ≤ fuel → motive p n (chunksFrom fuel p n) := by
  intro fuel
  induction fuel with
  | zero =>
    intro p n hn
    obtain rfl : n = 0 := by omega
    exact nil p
  | succ fuel ih =>
    intro p n hn
    rw [chunksFrom]
    split
    · next h0 => exact h0 ▸ nil p
    · next h0 => exact cons p n _ _ (Nat.pos_of_ne_zero h0) rfl (ih _ _ (by omega))

/-- How many bytes an operation of `n` bits at position `p` touches (R45, R85). -/
def touchedBytes (p n : Nat) : Nat := if n = 0 then 0 else (p % 8 + n - 1) / 8 + 1

/-- A first chunk of `k` bits takes the first byte; what remains, if anything, begins in the next one. -/
theorem touchedBytes_step {p n k : Nat} (hn : 0 < n) (hk : k = min n (8 - p % 8)) :
    touchedBytes p n = touchedBytes (p + k) (n - k) + 1 ∧ (n - k ≠ 0 → (p + k) / 8 = p / 8 + 1) := by
  unfold touchedBytes
  rw [if_neg (by omega)]
  split <;> omega

theorem touchedBytes_le {p n : Nat} (hn : n ≤ 58) : touchedBytes p n ≤ 9 := by
  unfold touchedBytes
  split <;> omega

/-- R45, R85: the chunks touch their bytes one after the other, each once. -/
theorem chunks_byte (p n : Nat) : (chunks p n).map Chunk.byte = List.range' (p / 8) (touchedBytes p n) := by
  refine chunksFrom_induction (motive := fun p n cs => cs.map Chunk.byte = List.range' (p / 8) (touchedBytes p n))
    (fun _ => rfl) (fun p n k cs hn hk ih => ?_) n p n le_rfl
  obtain ⟨hcount, hnext⟩ := touchedBytes_step hn hk
  rw [List.map_cons, ih, hcount, List.range'_succ]
  by_cases hrest : n - k = 0
  · simp [hrest, touchedBytes]
  · rw [hnext hrest]

/-- R84: the first chunk starts at the position's bit offset, and every other one at bit 0. -/
theorem chunks_offset (p n : Nat) :
    (∀ c ∈ (chunks p n).head?, c.offset = p % 8) ∧ ∀ c ∈ (chunks p n).tail, c.offset = 0 := by
  refine (chunksFrom_induction (motive := fun p n cs =>
    (n = 0 → cs = []) ∧ (∀ c ∈ cs.head?, c.offset = p % 8) ∧ ∀ c ∈ cs.tail, c.offset = 0)
    (fun _ => by simp) (fun p n k cs hn hk ih => ?_) n p n le_rfl).2
  obtain ⟨hnil, hhead, htail⟩ := ih
  refine ⟨fun h0 => absurd h0 (by omega), by simp, ?_⟩
  cases cs with
  | nil => simp
  | cons d ds =>
    have hrest : n - k ≠ 0 := fun h0 => List.cons_ne_nil d ds (hnil h0)
    have hd : d.offset = 0 := (hhead d rfl).trans (by omega)
    simpa [hd] using htail

/-- R84: a chunk has at least one bit and stays inside its byte. -/
theorem chunks_len (p n : Nat) : ∀ c ∈ chunks p n, 1 ≤ c.len ∧ c.offset + c.len ≤ 8 := by
  refine chunksFrom_induction (motive := fun _ _ cs => ∀ c ∈ cs, 1 ≤ c.len ∧ c.offset + c.len ≤ 8)
    (fun _ => by simp) (fun p n k cs hn hk ih => ?_) n p n le_rfl
  have hfirst : 1 ≤ k ∧ p % 8 + k ≤ 8 := by omega
  simpa [hfirst] using ih

theorem chunks_len_sum (p n : Nat) : ((chunks p n).map Chunk.len).sum = n := by
  refine chunksFrom_induction (motive := fun _ n cs => (cs.map Chunk.len).sum = n)
    (fun _ => rfl) (fun p n k cs hn hk ih => ?_) n p n le_rfl
  rw [List.map_cons, List.sum_cons, ih]
  show k + (n - k) = n
  omega

theorem chunks_length (p n : Nat) : (chunks p n).length = touchedBytes p n := by
  simpa using congrArg List.length (chunks_byte p n)

/-! ## The two loops -/

theorem memRead_of_ge {s : State} {j : Nat} (h : s.capacity.bytes ≤ j) : memRead s j = .error .noSuchByte :=
  if_neg h.not_gt

/-- R7: a chunk in a byte of the buffer leaves the cursor at a byte index that fits its register. -/
theorem State.pos_adv_in_byte {s : State} {c : Cursor} {k : Nat} (hN : c.byte.toNat < s.capacity.bytes)
    (hk : k ≤ 8 - c.bit.toNat) : (c.adv k).pos = c.pos + k := by
  have hcap := s.capacity.le_max
  have hbit := c.bit.isLt
  have hpos : c.pos = 8 * c.byte.toNat + c.bit.toNat := rfl
  exact Cursor.pos_adv_of_lt (by omega)

/-- R84, R89: the loop of WriteBits runs the chunks, from any turn on. -/
theorem writeChunks_eq_writeAlong (fuel : Nat) : ∀ (val : Word) (rem : Nat) (s : State), rem ≤ fuel →
    writeChunks fuel val rem s = (writeAlong (chunksFrom fuel s.w.pos rem) val s).map fun t => t.setW (s.w.adv rem) := by
  have done (val : Word) (s : State) : Except.ok s = (writeAlong [] val s).map fun t => t.setW (s.w.adv 0) := by
    rw [Cursor.adv_zero]
    rfl
  induction fuel with
  | zero =>
    intro val rem s hf
    obtain rfl : rem = 0 := by omega
    exact done val s
  | succ fuel ih =>
    intro val rem s hf
    by_cases h0 : rem = 0
    · simpa [writeChunks, chunksFrom, h0] using done val s
    · simp only [writeChunks, chunksFrom, h0, if_false, writeAlong, ← Cursor.pos_byte, ← Cursor.pos_bit]
      have hbit := s.w.bit.isLt
      obtain ⟨k, hk⟩ : ∃ k, k = min rem (8 - s.w.bit.toNat) := ⟨_, rfl⟩
      have hk8 : k ≤ 8 - s.w.bit.toNat := by omega
      rw [← hk]
      by_cases hN : s.w.byte.toNat < s.capacity.bytes
      · simp only [memRead_of_lt hN, memWrite_of_lt _ hN, State.setBuf_w, Cursor.bump_eq_adv hk8]
        rw [ih _ _ _ (by omega), State.setW_w, State.pos_adv_in_byte hN hk8, writeAlong_setW, Cursor.adv_adv,
          Nat.add_sub_cancel' (by omega)]
        cases writeAlong (chunksFrom fuel (s.w.pos + k) (rem - k)) (val >>> k) _ <;> rfl
      · rw [memRead_of_ge (Nat.le_of_not_lt hN)]
        rfl

/-- R84, R90: the loop of ReadBits runs the chunks, from any turn on; their bits come at `shift` and above. -/
theorem readChunks_eq_readAlong (fuel : Nat) : ∀ (acc : Word) (shift rem : Nat) (s : State), rem ≤ fuel →
    readChunks fuel acc shift rem s
      = (readAlong (chunksFrom fuel s.u.pos rem) s).map fun (x : Word) => (acc ||| (x <<< shift), s.setU (s.u.adv rem)) := by
  have done (acc : Word) (shift : Nat) (s : State) :
      Except.ok (acc, s) = (readAlong [] s).map fun (x : Word) => (acc ||| (x <<< shift), s.setU (s.u.adv 0)) := by
    rw [Cursor.adv_zero]
    show _ = Except.ok (acc ||| (0#64 <<< shift), s)
    rw [BitVec.zero_shiftLeft, BitVec.or_zero]
  induction fuel with
  | zero =>
    intro acc shift rem s hf
    obtain rfl : rem = 0 := by omega
    exact done acc shift s
  | succ fuel ih =>
    intro acc shift rem s hf
    by_cases h0 : rem = 0
    · simpa [readChunks, chunksFrom, h0] using done acc shift s
    · simp only [readChunks, chunksFrom, h0, if_false, readAlong, ← Cursor.pos_byte, ← Cursor.pos_bit]
      have hbit := s.u.bit.isLt
      obtain ⟨k, hk⟩ : ∃ k, k = min rem (8 - s.u.bit.toNat) := ⟨_, rfl⟩
      have hk8 : k ≤ 8 - s.u.bit.toNat := by omega
      rw [← hk]
      by_cases hN : s.u.byte.toNat < s.capacity.bytes
      · simp only [memRead_of_lt hN, Cursor.bump_eq_adv hk8]
        rw [ih _ _ _ _ (by omega), State.setU_u, State.pos_adv_in_byte hN hk8, readAlong_setU, Cursor.adv_adv,
          Nat.add_sub_cancel' (by omega)]
        cases readAlong (chunksFrom fuel (s.u.pos + k) (rem - k)) s with
        | error f => rfl
        | ok x =>
          simp only [Except.map, BitVec.shiftLeft_or_distrib, ← BitVec.shiftLeft_add, BitVec.or_assoc, Nat.add_comm k shift]
          rfl
      · rw [memRead_of_ge (Nat.le_of_not_lt hN)]
        rfl

theorem writeBits_eq_writeAlong (v : Word) (n : Nat) (s : State) :
    writeBits v n s = (writeAlong (chunks s.w.pos n) v s).map fun t => t.setW (s.w.adv n) :=
  writeChunks_eq_writeAlong n v n s le_rfl

theorem readBits_eq_readAlong (n : Nat) (s : State) :
    readBits n s = (readAlong (chunks s.u.pos n) s).map fun x => (x, s.setU (s.u.adv n)) := by
  simpa [readBits, chunks] using readChunks_eq_readAlong n 0 0 n s le_rfl

/-- Settles O46: the two loops by their turns, the facts of the split by the recursion of `chunksFrom`. -/
theorem chunkSplitIsExact : Obligations.ChunkSplitIsExact := by
  refine ⟨fun v n s => ⟨writeBits_eq_writeAlong v n s, readBits_eq_readAlong n s⟩, fun p n => ?_⟩
  obtain ⟨hhead, htail⟩ := chunks_offset p n
  exact ⟨chunks_byte p n, hhead, chunks_len p n, htail, chunks_len_sum p n,
    fun hn => (chunks_length p n).trans_le (touchedBytes_le hn)⟩

/-! ## The bits of the operand -/

theorem and_mask_congr {v v' : Word} {k : Nat} (h : ∀ i < k, v.getLsbD i = v'.getLsbD i) : v &&& mask k = v' &&& mask k := by
  refine BitVec.eq_of_getLsbD_eq fun i _ => ?_
  rw [BitVec.getLsbD_and, BitVec.getLsbD_and, mask_getLsbD]
  by_cases hi : i < k
  · rw [h i hi]
  · simp [hi]

/-- R96: the chunks' writes use as many low bits of the operand as the chunks have together. -/
theorem writeAlong_congr (cs : List Chunk) : ∀ {v v' : Word} (s : State),
    (∀ i < (cs.map Chunk.len).sum, v.getLsbD i = v'.getLsbD i) → writeAlong cs v s = writeAlong cs v' s := by
  induction cs with
  | nil => intros; rfl
  | cons c cs ih =>
    intro v v' s h
    rw [List.map_cons, List.sum_cons] at h
    have hfirst : v &&& mask c.len = v' &&& mask c.len := and_mask_congr fun i hi => h i (by omega)
    have hrest (t : State) : writeAlong cs (v >>> c.len) t = writeAlong cs (v' >>> c.len) t :=
      ih t fun i hi => by simpa using h (c.len + i) (by omega)
    simp only [writeAlong, hfirst, hrest]

theorem getLsbD_of_mod_eq {v v' : Word} {n : Nat} (h : v.toNat % 2 ^ n = v'.toNat % 2 ^ n) (i : Nat) (hi : i < n) :
    v.getLsbD i = v'.getLsbD i := by
  simpa [Nat.testBit_mod_two_pow, hi, BitVec.testBit_toNat] using congrArg (Nat.testBit · i) h

theorem writeBits_congr {v v' : Word} {n : Nat} (h : v.toNat % 2 ^ n = v'.toNat % 2 ^ n) (s : State) :
    writeBits v n s = writeBits v' n s := by
  rw [writeBits_eq_writeAlong, writeBits_eq_writeAlong,
    writeAlong_congr _ s ((chunks_len_sum s.w.pos n).symm ▸ getLsbD_of_mod_eq h)]

/-- Settles O28: the checks of ADD do not read DATA, and its WriteBits takes NBITS bits of it. -/
theorem addDiscardsHighBits : Obligations.AddDiscardsHighBits := fun n v v' s h => by
  show execAdd n v s = execAdd n v' s
  rw [execAdd, execAdd, writeBits_congr (n := width n) h]

end Sys2Proof.Machine
end

section
/-! PROOFS. Fields of the buffer: what a bit command that fits writes and reads, and that READ and READS give back what ADD and ADDS
wrote (40_cursor.md R93 to R98). -/

namespace Sys2Proof.Machine

/-! ## A bit command that fits -/

section
variable {s : State} {n : BitVec 6} (hf : s.fault = false) (hn : n.toNat ≤ 57)
include hf hn

theorem exec_add_ok (v : Word) (hin : s.inBounds s.w.pos n.toNat) :
    ∃ m, exec (.add n v) s = .next (((s.setBuf m).setW (s.w.adv n.toNat)).respond .ok 0) ∧
      ∀ q, (s.setBuf m).bitAt q = (s.bitAt q || writtenBit v s.w.pos n.toNat q) := by
  obtain ⟨m, e, hbits, -⟩ := writeBits_spec (v := v) hin
  refine ⟨m, ?_, hbits⟩
  show gated s (bitCommand _ _ n.toNat n.toNat s ((writeBits v n.toNat s).map _)) = _
  rw [gated_of_ready hf, bitCommand_ok hn hin, e]
  rfl

theorem exec_adds_ok (d : Word) (hin : s.inBounds s.w.pos (n.toNat + 1)) :
    ∃ m, exec (.adds n d) s = .next (((s.setBuf m).setW (s.w.adv (n.toNat + 1))).respond .ok 0) ∧
      ∀ q, (s.setBuf m).bitAt q = (s.bitAt q || (decide (q = s.w.pos) && decide (signedOf d < 0)) ||
        writtenBit (magnitude (signedOf d)) (s.w.pos + 1) n.toNat q) := by
  obtain ⟨m, e, hbits, -⟩ := writeSigned_spec (x := signedOf d) hin
  refine ⟨m, ?_, hbits⟩
  show gated s (bitCommand _ _ n.toNat (n.toNat + 1) s ((writeSigned (signedOf d) n.toNat s).map _)) = _
  rw [gated_of_ready hf, bitCommand_ok hn hin, e]
  rfl

theorem exec_read_ok (hin : s.inBounds s.u.pos n.toNat) :
    ∃ r, exec (.read n) s = .next ((s.setU (s.u.adv n.toNat)).respond .ok r) ∧
      ∀ i, r.getLsbD i = (decide (i < n.toNat) && s.bitAt (s.u.pos + i)) := by
  obtain ⟨r, e, hbits⟩ := readBits_spec (by omega) hin
  refine ⟨r, ?_, hbits⟩
  show gated s (bitCommand _ _ n.toNat n.toNat s (readBits n.toNat s)) = _
  rw [gated_of_ready hf, bitCommand_ok hn hin, e, complete_ok]

theorem exec_reads_ok (hin : s.inBounds s.u.pos (n.toNat + 1)) :
    ∃ m : Word, (∀ i, m.getLsbD i = (decide (i < n.toNat) && s.bitAt (s.u.pos + 1 + i))) ∧
      exec (.reads n) s = .next ((s.setU (s.u.adv (n.toNat + 1))).respond .ok
        (portWord (if s.bitAt s.u.pos then -(m.toNat : Int) else m.toNat))) := by
  obtain ⟨m, hbits, e⟩ := readSigned_spec (by omega) hin
  refine ⟨m, hbits, ?_⟩
  show gated s (bitCommand _ _ n.toNat (n.toNat + 1) s (readSigned n.toNat s)) = _
  rw [gated_of_ready hf, bitCommand_ok hn hin, e, complete_ok]

end

/-! ## Two commands back to back -/

theorem writtenBit_eq_ite (v : Word) (p n q : Nat) :
    writtenBit v p n q = if p ≤ q ∧ q < p + n then v.getLsbD (q - p) else false := by
  unfold writtenBit
  split <;> simp_all

/-- Settles O30: the second ADD starts where the first one has left W. -/
theorem addsArePackedWithoutGap : Obligations.AddsArePackedWithoutGap := by
  intro n k v v' s hf hn hk hfit
  obtain ⟨m, e, hbits⟩ := exec_add_ok hf hn v (.inr (by omega))
  have hin : s.inBounds s.w.pos n.toNat := .inr (by omega)
  have hpos : (s.w.adv n.toNat).pos = s.w.pos + n.toNat := Cursor.pos_adv_of_lt (s.inBounds_lt hin s.w.pos_lt)
  obtain ⟨m', e', hbits'⟩ := exec_add_ok (s := ((s.setBuf m).setW (s.w.adv n.toNat)).respond .ok 0) hf hk v'
    (.inr (by simpa [hpos] using hfit))
  refine ⟨_, _, e, e', ?_, fun q => ?_⟩
  · show (s.w.adv n.toNat).adv k.toNat = _
    rw [Cursor.adv_adv, Cursor.adv, Nat.add_assoc]
  · refine (hbits' q).trans ?_
    simp only [State.respond_bitAt, State.setW_bitAt, State.respond_w, State.setW_w, hpos, hbits, writtenBit_eq_ite,
      Bool.or_assoc, Nat.sub_add_eq]
    by_cases h₁ : s.w.pos ≤ q ∧ q < s.w.pos + n.toNat
    · have h₂ : ¬ (s.w.pos + n.toNat ≤ q ∧ q < s.w.pos + n.toNat + k.toNat) := by omega
      rw [if_pos h₁, if_pos h₁, if_neg h₂, Bool.or_false]
    · rw [if_neg h₁, if_neg h₁, Bool.false_or]
      split
      · rfl
      · rw [Bool.or_false]

/-- Settles O34: bit i of either side is the buffer's bit at pos(U) + i. -/
theorem readsConcatenate : Obligations.ReadsConcatenate := by
  intro n k s hf hn hfit
  have hnk : (n + k).toNat = n.toNat + k.toNat := BitVec.toNat_add_of_lt (by omega)
  have hin : s.inBounds s.u.pos n.toNat := .inr (by omega)
  have hpos : (s.u.adv n.toNat).pos = s.u.pos + n.toNat := Cursor.pos_adv_of_lt (s.inBounds_lt hin s.u.pos_lt)
  obtain ⟨r, e, hbits⟩ := exec_read_ok hf (n := n) (by omega) hin
  obtain ⟨r', e', hbits'⟩ := exec_read_ok (s := (s.setU (s.u.adv n.toNat)).respond .ok r) (n := k) hf (by omega)
    (.inr (by simpa [hpos] using hfit))
  obtain ⟨r'', e'', hbits''⟩ := exec_read_ok hf (n := n + k) (by omega) (.inr (by omega))
  have hr : r'' = r ||| (r' <<< n.toNat) := by
    refine BitVec.eq_of_getLsbD_eq fun i hi => ?_
    rw [hbits'', hnk, BitVec.getLsbD_or, BitVec.getLsbD_shiftLeft, hbits, hbits', State.respond_u, State.setU_u, hpos,
      State.respond_bitAt, State.setU_bitAt]
    by_cases h : i < n.toNat
    · have h' : i < n.toNat + k.toNat := by omega
      simp [h, h']
    · have h' : (i - n.toNat < k.toNat) = (i < n.toNat + k.toNat) := by simp; omega
      have hi' : s.u.pos + n.toNat + (i - n.toNat) = s.u.pos + i := by omega
      simp [h, h', hi', hi]
  refine ⟨_, _, _, r, r', e, e', rfl, rfl, e'', ?_, hr ▸ rfl⟩
  show s.u.adv (n + k).toNat = (s.u.adv n.toNat).adv k.toNat
  rw [hnk, Cursor.adv_adv]

/-! ## A number in the buffer -/

/-- The `n` bits at position `p` are the low bits of `v`, the least significant one first (R95). -/
def State.holds (s : State) (p n v : Nat) : Prop := ∀ i < n, s.bitAt (p + i) = v.testBit i

/-- R95, R123: READ returns the number that its bits hold. -/
theorem exec_read_of_holds {s : State} {n : BitVec 6} {v : Nat} (hf : s.fault = false) (hn : n.toNat ≤ 57)
    (hin : s.inBounds s.u.pos n.toNat) (hv : s.holds s.u.pos n.toNat v) :
    exec (.read n) s = .next ((s.setU (s.u.adv n.toNat)).respond .ok (BitVec.ofNat 64 (v % 2 ^ n.toNat))) := by
  obtain ⟨r, e, hbits⟩ := exec_read_ok hf hn hin
  have hr : r = BitVec.ofNat 64 (v % 2 ^ n.toNat) := by
    refine BitVec.eq_of_getLsbD_eq fun i hi => ?_
    rw [hbits, BitVec.getLsbD_ofNat, Nat.testBit_mod_two_pow, decide_eq_true hi, Bool.true_and]
    by_cases h : i < n.toNat
    · rw [hv i h]
    · simp [h]
  rw [e, hr]

/-- R94, R126: READS returns the integer of the sign and the magnitude that its bits hold. -/
theorem exec_reads_of_holds {s : State} {n : BitVec 6} {v : Nat} (hf : s.fault = false) (hn : n.toNat ≤ 57)
    (hin : s.inBounds s.u.pos (n.toNat + 1)) (hv : s.holds (s.u.pos + 1) n.toNat v) :
    exec (.reads n) s = .next ((s.setU (s.u.adv (n.toNat + 1))).respond .ok
      (portWord (if s.bitAt s.u.pos then -((v % 2 ^ n.toNat : Nat) : Int) else ((v % 2 ^ n.toNat : Nat) : Int)))) := by
  obtain ⟨m, hbits, e⟩ := exec_reads_ok hf hn hin
  have hm : m.toNat = v % 2 ^ n.toNat := by
    refine Nat.eq_of_testBit_eq fun i => ?_
    rw [BitVec.testBit_toNat, hbits, Nat.testBit_mod_two_pow]
    by_cases h : i < n.toNat
    · rw [hv i h]
    · simp [h]
  rw [e, hm]

/-- R95, R102: ADD on zero bits leaves DATA's low bits there, and every bit outside its extent alone. -/
theorem exec_add_holds {s : State} {n : BitVec 6} (hf : s.fault = false) (hn : n.toNat ≤ 57) (v : Word)
    (hin : s.inBounds s.w.pos n.toNat) (hzero : ∀ i < n.toNat, s.bitAt (s.w.pos + i) = false) :
    ∃ m, exec (.add n v) s = .next (((s.setBuf m).setW (s.w.adv n.toNat)).respond .ok 0) ∧
      (s.setBuf m).holds s.w.pos n.toNat v.toNat ∧
      ∀ q, q < s.w.pos ∨ s.w.pos + n.toNat ≤ q → (s.setBuf m).bitAt q = s.bitAt q := by
  obtain ⟨m, e, hbits⟩ := exec_add_ok hf hn v hin
  refine ⟨m, e, fun i hi => ?_, fun q hq => ?_⟩
  · rw [hbits, hzero i hi, Bool.false_or, writtenBit_eq_ite, if_pos (by omega), Nat.add_sub_cancel_left,
      BitVec.testBit_toNat]
  · rw [hbits, writtenBit_eq_ite, if_neg (by omega), Bool.or_false]

theorem signedOf_eq_toInt (d : Word) : signedOf d = d.toInt := by
  rw [signedOf, BitVec.toInt_eq_msb_cond, BitVec.msb_eq_getLsbD_last]
  rfl

/-- R93: the magnitude word has the bits of |x|. -/
theorem magnitude_getLsbD (x : Int) {i : Nat} (hi : i < 64) : (magnitude x).getLsbD i = x.natAbs.testBit i := by
  rw [magnitude, BitVec.getLsbD_ofNat, decide_eq_true hi, Bool.true_and]

/-- R95, R106: ADDS on zero bits leaves DATA's sign and the low bits of its magnitude there, and every bit outside its extent alone. -/
theorem exec_adds_holds {s : State} {n : BitVec 6} (hf : s.fault = false) (hn : n.toNat ≤ 57) (d : Word)
    (hin : s.inBounds s.w.pos (n.toNat + 1)) (hzero : ∀ i < n.toNat + 1, s.bitAt (s.w.pos + i) = false) :
    ∃ m, exec (.adds n d) s = .next (((s.setBuf m).setW (s.w.adv (n.toNat + 1))).respond .ok 0) ∧
      (s.setBuf m).bitAt s.w.pos = decide (d.toInt < 0) ∧ (s.setBuf m).holds (s.w.pos + 1) n.toNat d.toInt.natAbs ∧
      ∀ q, q < s.w.pos ∨ s.w.pos + (n.toNat + 1) ≤ q → (s.setBuf m).bitAt q = s.bitAt q := by
  obtain ⟨m, e, hbits⟩ := exec_adds_ok hf hn d hin
  simp only [signedOf_eq_toInt, writtenBit_eq_ite] at hbits
  refine ⟨m, e, ?_, fun i hi => ?_, fun q hq => ?_⟩
  · have hsign : s.bitAt s.w.pos = false := hzero 0 (Nat.succ_pos _)
    rw [hbits, hsign, if_neg (by omega)]
    simp
  · have hbit : s.bitAt (s.w.pos + 1 + i) = false := by simpa [Nat.add_assoc, Nat.add_comm 1 i] using hzero (i + 1) (by omega)
    have hne : s.w.pos + 1 + i ≠ s.w.pos := by omega
    rw [hbits, hbit, if_pos (by omega), Nat.add_sub_cancel_left, magnitude_getLsbD _ (by omega)]
    simp [hne]
  · have hne : q ≠ s.w.pos := by omega
    rw [hbits, if_neg (by omega)]
    simp [hne]

/-! ## Round trips -/

/-- Settles O39: on zero bits ADD leaves DATA's low bits, and READ returns the number that its bits hold. -/
theorem unsignedFieldRoundTrip : Obligations.UnsignedFieldRoundTrip := by
  intro n v s hf _ hn hfit hu hzero
  obtain ⟨m, e, hv, -⟩ := exec_add_holds hf hn v (.inr hfit) fun i hi => hzero _ (by omega) (by omega)
  refine ⟨_, _, e, exec_read_of_holds (v := v.toNat) hf hn (.inr ?_) ?_, rfl⟩
  · exact hu ▸ hfit
  · exact hu ▸ hv

/-- R13: an integer of magnitude below 2^63 passes the result port unchanged. -/
theorem toInt_portWord {x : Int} (hx : x.natAbs < 2 ^ 63) : (portWord x).toInt = x := by
  rw [portWord, BitVec.toInt_ofInt_eq_self (by decide)] <;> omega

/-- Settles O40: as O39 for the sign and the magnitude, which at most 57 bits keep within a signed port word. -/
theorem signedFieldRoundTrip : Obligations.SignedFieldRoundTrip := by
  intro n d s hf hn hfit hu hzero
  obtain ⟨m, e, hsign, hmag, -⟩ := exec_adds_holds hf hn d (.inr hfit) fun i hi => hzero _ (by omega) (by omega)
  have hread := exec_reads_of_holds (s := ((s.setBuf m).setW (s.w.adv (n.toNat + 1))).respond .ok 0) hf hn
    (.inr (hu ▸ hfit)) (hu ▸ hmag)
  simp only [State.respond_bitAt, State.setW_bitAt, State.respond_u, State.setW_u, State.setBuf_u, hu, hsign,
    decide_eq_true_eq] at hread
  have hlt : d.toInt.natAbs % 2 ^ n.toNat < 2 ^ 57 :=
    (Nat.mod_lt _ (Nat.two_pow_pos _)).trans_le (Nat.pow_le_pow_right (by decide) hn)
  have hport := toInt_portWord (x := if d.toInt < 0 then -((d.toInt.natAbs % 2 ^ n.toNat : Nat) : Int)
    else ((d.toInt.natAbs % 2 ^ n.toNat : Nat) : Int)) (by split <;> omega)
  refine ⟨_, _, _, e, hread, rfl, hport, fun hfits => BitVec.eq_of_toInt_eq ?_⟩
  rw [hport, Nat.mod_eq_of_lt hfits]
  split <;> omega

end Sys2Proof.Machine
end

section
/-! PROOFS. Records written from the origin come back from DecodeAll (40_cursor.md R97; 45_host_sequencing.md R160 to R163, R166): what
the encoder leaves in the buffer, field by field, and what the decoder reads there. -/

namespace Sys2Proof

/-! ## Descriptors -/

theorem Descriptor.wf_iff (d : Descriptor) : d.wf = true ↔ 1 ≤ d.width ∧ d.width ≤ 57 := by
  rw [Descriptor.wf, Bool.and_eq_true, decide_eq_true_iff, decide_eq_true_iff]
  rfl

/-- R63, R71: a descriptor's width is what an NBITS field holds. -/
theorem Descriptor.exists_nbits {w : Nat} {signed : Bool} (hd : Descriptor.wf ⟨w, signed⟩ = true) :
    ∃ n : BitVec 6, w = n.toNat ∧ n.toNat ≤ 57 := by
  obtain ⟨-, hw⟩ : 1 ≤ w ∧ w ≤ 57 := (Descriptor.wf_iff _).1 hd
  have hn : (BitVec.ofNat 6 w).toNat = w := by
    rw [BitVec.toNat_ofNat, Nat.mod_eq_of_lt (by omega)]
  exact ⟨BitVec.ofNat 6 w, hn.symm, hn.trans_le hw⟩

@[simp] theorem Descriptor.bits_unsigned (w : Nat) : Descriptor.bits ⟨w, false⟩ = w := rfl
@[simp] theorem Descriptor.bits_signed (w : Nat) : Descriptor.bits ⟨w, true⟩ = w + 1 := rfl

@[simp] theorem Descriptor.recordBits_nil : Descriptor.recordBits [] = 0 := rfl
@[simp] theorem Descriptor.recordBits_cons (d : Descriptor) (ds : List Descriptor) :
    Descriptor.recordBits (d :: ds) = d.bits + Descriptor.recordBits ds := List.sum_cons

/-- R161: the widths of a list that DecodeAll accepts are legal, and its records are not empty. -/
theorem Descriptor.of_listWf {ds : List Descriptor} (h : Descriptor.listWf ds = true) :
    (∀ d ∈ ds, d.wf = true) ∧ 0 < Descriptor.recordBits ds := by
  cases ds with
  | nil => simp [Descriptor.listWf] at h
  | cons d ds =>
    have hwf : ∀ e ∈ d :: ds, e.wf = true := by simpa [Descriptor.listWf] using h
    refine ⟨hwf, ?_⟩
    have hd := d.wf_iff.1 (hwf d List.mem_cons_self)
    rw [Descriptor.recordBits_cons, Descriptor.bits]
    omega

end Sys2Proof

namespace Sys2Proof.Machine

/-! ## The host's command -/

/-- R60, R68: the host takes RESULT exactly if the command answers OK. -/
theorem issue_eq_ok_iff {i : Instr} {s t : State} {x : Word} :
    issue i s = .ok (x, t) ↔ exec i s = .next t ∧ t.answer = some ⟨.ok, x⟩ := by
  obtain ⟨t', ht', -⟩ := exec_sameHost i s
  simp only [issue, serveCommand_of_command (encodedCommandDecodes i), ht', Host.Outcome.next.injEq]
  cases hans : t'.answer with
  | none => exact iff_of_false nofun fun ⟨ht, hok⟩ => by simp [← ht, hans] at hok
  | some a =>
    obtain ⟨resp, result⟩ := a
    cases resp with
    | ok =>
      simp only [if_true, Except.ok.injEq, Prod.mk.injEq]
      exact and_comm.trans (and_congr_right fun ht => by simp [← ht, hans])
    | faulted | rejected => exact iff_of_false (by simp) fun ⟨ht, hok⟩ => by simp [← ht, hans] at hok

theorem issue_of_exec {i : Instr} {s t : State} {x : Word} (h : exec i s = .next (t.respond .ok x)) :
    issue i s = .ok (x, t.respond .ok x) := issue_eq_ok_iff.2 ⟨h, rfl⟩

/-- R174, R175: a bit command that answers OK has passed the gate and both checks. -/
theorem legal_of_bitCommand_ok {o : Cause} {p n k : Nat} {s t : State} {e : Except Fault (Word × State)} {x : Word}
    (h : gated s (bitCommand o p n k s e) = .next t) (hans : t.answer = some ⟨.ok, x⟩) :
    s.fault = false ∧ n ≤ 57 ∧ s.inBounds p k := by
  obtain ⟨-, rfl⟩ | ⟨hf, h⟩ := gated_eq_next_iff.1 h
  · simp at hans
  obtain ⟨-, hr⟩ | ⟨-, -, hr⟩ | ⟨hn, hin, -⟩ := bitCommand_cases o p n k s e
  · cases hr.symm.trans h
    simp at hans
  · cases hr.symm.trans h
    simp at hans
  · exact ⟨hf, hn, hin⟩

/-! ## Fields and records in the buffer -/

/-- The field `d` at position `p` holds `x` (R93, R95). -/
def State.holdsField (s : State) (p : Nat) : Descriptor → Int → Prop
  | ⟨w, false⟩, x => s.holds p w x.natAbs
  | ⟨w, true⟩, x => s.bitAt p = decide (x < 0) ∧ s.holds (p + 1) w x.natAbs

/-- The record at position `p` holds the values `xs`, one for each descriptor, with no gap (R98, R160). -/
def State.holdsRecord (s : State) : Nat → List Descriptor → List Int → Prop
  | p, d :: ds, x :: xs => s.holdsField p d x ∧ s.holdsRecord (p + d.bits) ds xs
  | _, [], [] => True
  | _, _, _ => False

/-- The records from position `p` on hold the lists of values `xss`, with no padding between them (R104, R160). -/
def State.holdsRecords (s : State) (ds : List Descriptor) : Nat → List (List Int) → Prop
  | p, xs :: xss => s.holdsRecord p ds xs ∧ s.holdsRecords ds (p + Descriptor.recordBits ds) xss
  | _, [] => True

section
variable {s t : State}

theorem State.holds_congr {p n v : Nat} (h : ∀ q < p + n, t.bitAt q = s.bitAt q) (hs : s.holds p n v) : t.holds p n v :=
  fun i hi => (h _ (by omega)).trans (hs i hi)

theorem State.holdsField_congr {p : Nat} {d : Descriptor} {x : Int} (h : ∀ q < p + d.bits, t.bitAt q = s.bitAt q)
    (hs : s.holdsField p d x) : t.holdsField p d x := by
  obtain ⟨w, _ | _⟩ := d
  · exact State.holds_congr h hs
  · obtain ⟨hsign, hmag⟩ := hs
    rw [Descriptor.bits_signed] at h
    exact ⟨(h p (by omega)).trans hsign, State.holds_congr (fun q hq => h q (by omega)) hmag⟩

theorem State.holdsRecord_congr {ds : List Descriptor} : ∀ {p : Nat} {xs : List Int},
    (∀ q < p + Descriptor.recordBits ds, t.bitAt q = s.bitAt q) → s.holdsRecord p ds xs → t.holdsRecord p ds xs := by
  induction ds with
  | nil =>
    intro p xs _ hs
    cases xs <;> exact hs
  | cons d ds ih =>
    intro p xs h hs
    cases xs with
    | nil => exact hs
    | cons x xs =>
      obtain ⟨hfield, hrest⟩ := hs
      rw [Descriptor.recordBits_cons] at h
      exact ⟨State.holdsField_congr (fun q hq => h q (by omega)) hfield, ih (fun q hq => h q (by omega)) hrest⟩

/-- The records are in the buffer, whatever the other fields of the state. -/
theorem State.holdsRecords_congr (h : t.buf = s.buf) {ds : List Descriptor} {xss : List (List Int)} :
    ∀ {p : Nat}, s.holdsRecords ds p xss → t.holdsRecords ds p xss := by
  induction xss with
  | nil => exact id
  | cons xs xss ih =>
    rintro p ⟨hrecord, hrest⟩
    exact ⟨State.holdsRecord_congr (fun q _ => State.bitAt_congr h q) hrecord, ih hrest⟩

end

/-! ## Writing records -/

/-- From `s` to `t` the host has written `k` bits at W and nothing else. -/
structure Wrote (s t : State) (k : Nat) : Prop where
  fault : t.fault = s.fault
  capacity : t.capacity = s.capacity
  inBounds : s.inBounds s.w.pos k
  pos : t.w.pos = s.w.pos + k
  below : ∀ q < s.w.pos, t.bitAt q = s.bitAt q
  above : ∀ q, s.w.pos + k ≤ q → t.bitAt q = s.bitAt q

theorem Wrote.refl (s : State) : Wrote s s 0 := ⟨rfl, rfl, .inl rfl, rfl, fun _ _ => rfl, fun _ _ => rfl⟩

theorem Wrote.trans {s t r : State} {j k : Nat} (h₁ : Wrote s t j) (h₂ : Wrote t r k) : Wrote s r (j + k) where
  fault := h₂.fault.trans h₁.fault
  capacity := h₂.capacity.trans h₁.capacity
  inBounds := by
    have hj := h₁.inBounds
    have hk := h₂.inBounds
    rw [State.inBounds, h₁.capacity, h₁.pos] at hk
    unfold State.inBounds at hj ⊢
    omega
  pos := by rw [h₂.pos, h₁.pos, Nat.add_assoc]
  below q hq := (h₂.below q (by rw [h₁.pos]; omega)).trans (h₁.below q hq)
  above q hq := (h₂.above q (by rw [h₁.pos]; omega)).trans (h₁.above q (by omega))

/-- The buffer is zero from W on. -/
def State.zeroFromW (s : State) : Prop := ∀ q, s.w.pos ≤ q → s.bitAt q = false

theorem Wrote.zeroFromW {s t : State} {k : Nat} (h : Wrote s t k) (hs : s.zeroFromW) : t.zeroFromW := fun q hq => by
  rw [h.pos] at hq
  exact (h.above q hq).trans (hs q (by omega))

theorem wrote_effect {s : State} {m : Memory} {k : Nat} (hin : s.inBounds s.w.pos k)
    (hframe : ∀ q, q < s.w.pos ∨ s.w.pos + k ≤ q → (s.setBuf m).bitAt q = s.bitAt q) (x : Word) :
    Wrote s (((s.setBuf m).setW (s.w.adv k)).respond .ok x) k :=
  ⟨rfl, rfl, hin, Cursor.pos_adv_of_lt (s.inBounds_lt hin s.w.pos_lt), fun q hq => hframe q (.inl hq),
    fun q hq => hframe q (.inr hq)⟩

/-- R97: a value that fits its unsigned field is the number its operand holds. -/
theorem toNat_portWord {w : Nat} {x : Int} (hw : w ≤ 57) (hx : fits ⟨w, false⟩ x) : (portWord x).toNat = x.natAbs := by
  obtain ⟨h0, hlt⟩ : 0 ≤ x ∧ x < 2 ^ w := hx
  have hpow : (2 : Int) ^ w ≤ 2 ^ 57 := pow_le_pow_right₀ (by decide) hw
  rw [portWord, BitVec.toNat_ofInt]
  omega

theorem natAbs_lt_of_fits {d : Descriptor} {x : Int} (hx : fits d x) : x.natAbs < 2 ^ d.width := by
  unfold fits at hx
  split at hx
  · exact hx
  · zify
    rw [abs_of_nonneg hx.1]
    exact hx.2

theorem natAbs_lt_of_width {x : Int} {w : Nat} (hw : w ≤ 57) (hx : x.natAbs < 2 ^ w) : x.natAbs < 2 ^ 63 :=
  hx.trans_le (Nat.pow_le_pow_right (by decide) (by omega))

/-- R71: the command of a `put` line. -/
theorem expandLine_put (n : BitVec 6) (x : Int) :
    expandLine (.put ⟨n.toNat, false⟩ x) = .add n (portWord x) ∧
    expandLine (.put ⟨n.toNat, true⟩ x) = .adds n (portWord x) := by
  simp [expandLine]

/-- R71: the command of a `get` line. -/
theorem expandLine_get (n : BitVec 6) :
    expandLine (.get ⟨n.toNat, false⟩) = .read n ∧ expandLine (.get ⟨n.toNat, true⟩) = .reads n := by
  simp [expandLine]

/-- R71, R160: a `put` that answers OK writes its field at W. -/
theorem put_wrote {d : Descriptor} {x : Int} {s t : State} {y : Word} (hd : d.wf = true) (hx : fits d x) (hz : s.zeroFromW)
    (h : issue (expandLine (.put d x)) s = .ok (y, t)) : Wrote s t d.bits ∧ t.holdsField s.w.pos d x := by
  have hzero (k : Nat) : ∀ i < k, s.bitAt (s.w.pos + i) = false := fun i _ => hz _ (Nat.le_add_right ..)
  obtain ⟨w, signed⟩ := d
  obtain ⟨n, rfl, hn⟩ := Descriptor.exists_nbits hd
  obtain ⟨hunsigned, hsigned⟩ := expandLine_put n x
  cases signed with
  | false =>
    obtain ⟨hexec, hans⟩ := issue_eq_ok_iff.1 (hunsigned ▸ h)
    obtain ⟨hf, -, hin⟩ := legal_of_bitCommand_ok hexec hans
    obtain ⟨m, e, hv, hframe⟩ := exec_add_holds hf hn (portWord x) hin (hzero _)
    cases hexec.symm.trans e
    rw [toNat_portWord hn hx] at hv
    exact ⟨wrote_effect hin hframe 0, hv⟩
  | true =>
    obtain ⟨hexec, hans⟩ := issue_eq_ok_iff.1 (hsigned ▸ h)
    obtain ⟨hf, -, hin⟩ := legal_of_bitCommand_ok hexec hans
    obtain ⟨m, e, hsign, hmag, hframe⟩ := exec_adds_holds hf hn (portWord x) hin (hzero _)
    cases hexec.symm.trans e
    rw [toInt_portWord (natAbs_lt_of_width hn (natAbs_lt_of_fits hx))] at hsign hmag
    exact ⟨wrote_effect hin hframe 0, hsign, hmag⟩

theorem putFields_cons_eq_written {d : Descriptor} {x : Int} {fs : List (Descriptor × Int)} {s t : State}
    (h : putFields ((d, x) :: fs) s = .written t) :
    ∃ y s', issue (expandLine (.put d x)) s = .ok (y, s') ∧ putFields fs s' = .written t := by
  rw [putFields] at h
  split at h
  · cases h
  · next y s' hissue => exact ⟨y, s', hissue, h⟩

/-- R160: the fields of a record that is written whole stand one after the other from W on. -/
theorem putFields_wrote {ds : List Descriptor} {xs : List Int} (hfits : List.Forall₂ fits ds xs) :
    ∀ {s t : State}, (∀ d ∈ ds, d.wf = true) → s.zeroFromW → putFields (ds.zip xs) s = .written t →
      Wrote s t (Descriptor.recordBits ds) ∧ t.holdsRecord s.w.pos ds xs := by
  induction hfits with
  | nil =>
    intro s t _ _ h
    cases h
    exact ⟨.refl s, trivial⟩
  | @cons d x ds xs hx _ ih =>
    intro s t hds hz h
    obtain ⟨hd, hds⟩ := List.forall_mem_cons.1 hds
    obtain ⟨y, s', hissue, hrest⟩ := putFields_cons_eq_written h
    obtain ⟨hput, hfield⟩ := put_wrote hd hx hz hissue
    obtain ⟨hfields, hrecord⟩ := ih hds (hput.zeroFromW hz) hrest
    rw [hput.pos] at hrecord
    exact ⟨Descriptor.recordBits_cons d ds ▸ hput.trans hfields,
      State.holdsField_congr (hput.pos ▸ hfields.below) hfield, hrecord⟩

theorem putFields_of_encodeRecord {ds : List Descriptor} {xs : List Int} {s t : State} (h : encodeRecord ds xs s = .written t) :
    putFields (ds.zip xs) s = .written t := by
  rw [encodeRecord] at h
  split at h
  · exact h
  · cases h

theorem encodeRecords_cons_eq_written {ds : List Descriptor} {xs : List Int} {xss : List (List Int)} {s t : State}
    (h : encodeRecords ds (xs :: xss) s = .written t) :
    ∃ s', encodeRecord ds xs s = .written s' ∧ encodeRecords ds xss s' = .written t := by
  rw [encodeRecords] at h
  split at h
  · next s' hrecord => exact ⟨s', hrecord, h⟩
  · cases h
  · cases h

/-- R104, R160: the records stand one after the other from W on. -/
theorem encodeRecords_wrote {ds : List Descriptor} (hds : ∀ d ∈ ds, d.wf = true) {xss : List (List Int)} :
    ∀ {s t : State}, (∀ xs ∈ xss, List.Forall₂ fits ds xs) → s.zeroFromW → encodeRecords ds xss s = .written t →
      Wrote s t (xss.length * Descriptor.recordBits ds) ∧ t.holdsRecords ds s.w.pos xss := by
  induction xss with
  | nil =>
    intro s t _ _ h
    cases h
    exact ⟨by simpa using Wrote.refl s, trivial⟩
  | cons xs xss ih =>
    intro s t hfits hz h
    obtain ⟨hxs, hxss⟩ := List.forall_mem_cons.1 hfits
    obtain ⟨s', hfirst, hrest⟩ := encodeRecords_cons_eq_written h
    obtain ⟨hwrote, hrecord⟩ := putFields_wrote hxs hds hz (putFields_of_encodeRecord hfirst)
    obtain ⟨hwrote', hrecords⟩ := ih hxss (hwrote.zeroFromW hz) hrest
    rw [hwrote.pos] at hrecords
    refine ⟨?_, State.holdsRecord_congr (hwrote.pos ▸ hwrote'.below) hrecord, hrecords⟩
    rw [List.length_cons, Nat.succ_mul, Nat.add_comm]
    exact hwrote.trans hwrote'

/-! ## Reading records -/

/-- `s` after the host has read `k` bits at U, with the last answer `a`. -/
def State.afterReading (s : State) (k : Nat) (a : Option Answer) : State := { s with u := s.u.adv k, answer := a }

/-- R97, R161: a field that holds `x` is read as `x`. -/
theorem getField_of_holds {d : Descriptor} {x : Int} {s : State} (hd : d.wf = true) (hx : fits d x) (hf : s.fault = false)
    (hin : s.inBounds s.u.pos d.bits) (hv : s.holdsField s.u.pos d x) :
    ∃ a, getField d s = .ok (x, s.afterReading d.bits a) := by
  have habs := natAbs_lt_of_fits hx
  obtain ⟨w, signed⟩ := d
  obtain ⟨n, rfl, hn⟩ := Descriptor.exists_nbits hd
  have hsmall := natAbs_lt_of_width hn habs
  obtain ⟨hunsigned, hsigned⟩ := expandLine_get n
  cases signed with
  | false =>
    have e := exec_read_of_holds hf hn hin hv
    rw [Nat.mod_eq_of_lt habs] at e
    have hval : ((BitVec.ofNat 64 x.natAbs).toNat : Int) = x := by
      have h0 : 0 ≤ x := hx.1
      rw [BitVec.toNat_ofNat, Nat.mod_eq_of_lt (by omega)]
      omega
    refine ⟨some ⟨.ok, BitVec.ofNat 64 x.natAbs⟩, ?_⟩
    rw [getField, hunsigned, issue_of_exec e]
    exact congrArg (fun v => Except.ok (v, _)) hval
  | true =>
    obtain ⟨hsign, hmag⟩ := hv
    have e := exec_reads_of_holds hf hn hin hmag
    have hint : (if decide (x < 0) = true then -(x.natAbs : Int) else (x.natAbs : Int)) = x := by
      simp only [decide_eq_true_eq]
      split <;> omega
    rw [Nat.mod_eq_of_lt habs, hsign, hint] at e
    have hval : signedOf (portWord x) = x := by
      rw [signedOf_eq_toInt, toInt_portWord hsmall]
    refine ⟨some ⟨.ok, portWord x⟩, ?_⟩
    rw [getField, hsigned, issue_of_exec e]
    exact congrArg (fun v => Except.ok (v, _)) hval

theorem State.afterReading_pos {s : State} {k : Nat} (h : s.inBounds s.u.pos k) (a : Option Answer) :
    (s.afterReading k a).u.pos = s.u.pos + k :=
  Cursor.pos_adv_of_lt (s.inBounds_lt h s.u.pos_lt)

theorem State.afterReading_afterReading (s : State) (j k : Nat) (a b : Option Answer) :
    (s.afterReading j a).afterReading k b = s.afterReading (j + k) b := by
  simp only [State.afterReading, Cursor.adv_adv]

/-- R161, R162: a record that holds `xs` is read as `xs`. -/
theorem getRecord_of_holds {ds : List Descriptor} {xs : List Int} (hfits : List.Forall₂ fits ds xs) :
    ∀ {s : State}, (∀ d ∈ ds, d.wf = true) → s.fault = false → s.inBounds s.u.pos (Descriptor.recordBits ds) →
      s.holdsRecord s.u.pos ds xs → ∃ a, getRecord ds s = .ok (xs, s.afterReading (Descriptor.recordBits ds) a) := by
  induction hfits with
  | nil =>
    intro s _ _ _ _
    exact ⟨s.answer, by simp [getRecord, State.afterReading]⟩
  | @cons d x ds xs hx _ ih =>
    intro s hds hf hin hv
    obtain ⟨hd, hds⟩ := List.forall_mem_cons.1 hds
    obtain ⟨hfield, hrest⟩ := hv
    rw [Descriptor.recordBits_cons] at hin ⊢
    have hin₁ : s.inBounds s.u.pos d.bits := by
      unfold State.inBounds at hin ⊢
      omega
    obtain ⟨a, ha⟩ := getField_of_holds hd hx hf hin₁ hfield
    have hpos := State.afterReading_pos hin₁ a
    have hin₂ : (s.afterReading d.bits a).inBounds (s.afterReading d.bits a).u.pos (Descriptor.recordBits ds) := by
      rw [hpos]
      show _ ∨ _ ≤ 8 * s.capacity.bytes
      unfold State.inBounds at hin
      omega
    obtain ⟨b, hb⟩ := ih (s := s.afterReading d.bits a) hds hf hin₂
      (State.holdsRecord_congr (s := s) (fun _ _ => rfl) (hpos.symm ▸ hrest))
    refine ⟨b, ?_⟩
    rw [getRecord, ha]
    simp only [hb, State.afterReading_afterReading]
    rfl

theorem issue_stat (s : State) : issue .stat s = .ok (s.status, s.respond .ok s.status) := issue_of_exec rfl

/-- R28, R29: MORE compares the byte that U is in with ULEN. -/
theorem status_more (s : State) : s.status.getLsbD 1 = decide (s.u.pos / 8 < s.ulen.toNat) := by
  rw [status_getLsbD, if_neg (by decide), if_pos rfl, State.more, Cursor.pos_byte]

/-- From U on the buffer holds the records `xss`, and U is in a byte below ULEN before each of them and not after the last one. -/
structure RecordsAhead (ds : List Descriptor) (xss : List (List Int)) (s : State) : Prop where
  fault : s.fault = false
  inBounds : s.inBounds s.u.pos (xss.length * Descriptor.recordBits ds)
  holds : s.holdsRecords ds s.u.pos xss
  more : ∀ j < xss.length, (s.u.pos + j * Descriptor.recordBits ds) / 8 < s.ulen.toNat
  done : s.ulen.toNat ≤ (s.u.pos + xss.length * Descriptor.recordBits ds) / 8

section
variable {ds : List Descriptor} {xs : List Int} {xss : List (List Int)} {s : State}

theorem RecordsAhead.status_of_nil (h : RecordsAhead ds [] s) : s.status.getLsbD 1 = false := by
  rw [status_more]
  simpa using h.done

theorem RecordsAhead.status_of_cons (h : RecordsAhead ds (xs :: xss) s) : s.status.getLsbD 1 = true := by
  rw [status_more]
  simpa using h.more 0 (Nat.succ_pos _)

theorem RecordsAhead.inBounds_first (h : RecordsAhead ds (xs :: xss) s) : s.inBounds s.u.pos (Descriptor.recordBits ds) := by
  have hin := h.inBounds
  rw [List.length_cons, Nat.succ_mul] at hin
  unfold State.inBounds at hin ⊢
  omega

theorem RecordsAhead.after_first (h : RecordsAhead ds (xs :: xss) s) (a : Option Answer) :
    RecordsAhead ds xss (s.afterReading (Descriptor.recordBits ds) a) := by
  have hpos := State.afterReading_pos h.inBounds_first a
  have hshift (j : Nat) : (s.afterReading (Descriptor.recordBits ds) a).u.pos + j * Descriptor.recordBits ds
      = s.u.pos + (j + 1) * Descriptor.recordBits ds := by
    rw [hpos, Nat.succ_mul]
    omega
  obtain ⟨hf, hin, ⟨-, hrest⟩, hmore, hdone⟩ := h
  refine ⟨hf, ?_, State.holdsRecords_congr (s := s) (t := s.afterReading _ a) rfl (hpos.symm ▸ hrest), fun j hj => ?_, ?_⟩
  · rw [List.length_cons] at hin
    show _ ∨ _ ≤ 8 * s.capacity.bytes
    rw [hshift]
    unfold State.inBounds at hin
    rw [Nat.succ_mul] at hin ⊢
    omega
  · exact hshift j ▸ hmore (j + 1) (Nat.succ_lt_succ hj)
  · exact hshift xss.length ▸ hdone

end

/-- R161, R162: the loop reads the records ahead and stops after the last one. -/
theorem decodeLoop_of_recordsAhead {ds : List Descriptor} (hds : ∀ d ∈ ds, d.wf = true) {xss : List (List Int)} :
    ∀ {fuel : Nat} {s : State}, xss.length < fuel → (∀ xs ∈ xss, List.Forall₂ fits ds xs) → RecordsAhead ds xss s →
      ∃ t, decodeLoop fuel ds s = .records xss t := by
  induction xss with
  | nil =>
    intro fuel s hfuel _ h
    obtain ⟨fuel, rfl⟩ := Nat.exists_eq_add_of_lt hfuel
    refine ⟨s.respond .ok s.status, ?_⟩
    simp only [decodeLoop, issue_stat, h.status_of_nil, Bool.false_eq_true, if_false]
  | cons xs xss ih =>
    intro fuel s hfuel hfits h
    obtain ⟨fuel, rfl⟩ := Nat.exists_eq_succ_of_ne_zero (Nat.ne_zero_of_lt hfuel)
    obtain ⟨hxs, hxss⟩ := List.forall_mem_cons.1 hfits
    obtain ⟨hrecord, -⟩ := h.holds
    obtain ⟨a, ha⟩ := getRecord_of_holds (s := s.respond .ok s.status) hxs hds h.fault h.inBounds_first
      (State.holdsRecord_congr (s := s) (fun _ _ => rfl) hrecord)
    obtain ⟨t, ht⟩ := ih (Nat.lt_of_succ_lt_succ hfuel) hxss (h.after_first a)
    have hrest : decodeLoop fuel ds ((s.respond .ok s.status).afterReading (Descriptor.recordBits ds) a) = .records xss t := ht
    refine ⟨t, ?_⟩
    simp only [decodeLoop, issue_stat, h.status_of_cons, if_true, ha, hrest]

/-- R120: UINIT with a length of at most N starts a read at the origin. -/
theorem issue_uinit {len : Word} {s : State} (hf : s.fault = false) (hlen : len.toNat ≤ s.capacity.bytes) :
    ∃ t, issue (.uinit len) s = .ok (0, t) ∧ t.buf = s.buf ∧ t.capacity = s.capacity ∧ t.fault = false ∧ t.u.pos = 0 ∧
      t.ulen.toNat = len.toNat := by
  refine ⟨_, issue_of_exec (t := (s.setU Cursor.origin).setUlen (BitVec.ofNat 23 len.toNat)) ?_, rfl, rfl, hf, rfl, ?_⟩
  · show gated s (if _ then _ else _) = _
    rw [gated_of_ready hf, if_neg (by omega), complete_ok]
  · have hcap := s.capacity.le_max
    show (BitVec.ofNat 23 len.toNat).toNat = _
    rw [BitVec.toNat_ofNat, Nat.mod_eq_of_lt (by omega)]

/-- R163: for a length that the record-count rule gives for K records, MORE is 1 before each of them, and the loop's bound is
enough. -/
theorem more_of_recordCount {b k l : Nat} (hb : 0 < b) (hlo : (k - 1) * b / 8 < l) :
    (∀ j < k, j * b / 8 < l) ∧ k < 8 * l + 1 := by
  refine ⟨fun j hj => lt_of_le_of_lt (Nat.div_le_div_right (Nat.mul_le_mul_right b (by omega))) hlo, ?_⟩
  have : k - 1 ≤ (k - 1) * b := Nat.le_mul_of_pos_right _ hb
  omega

/-- Settles O53: the encoder leaves the records in the buffer from the origin on, and the decoder reads them there. -/
theorem recordsRoundTrip : Obligations.RecordsRoundTrip := by
  intro ds xss len s t hw hzero hf hwf hfits henc hlo hhi
  obtain ⟨hds, hB⟩ := Descriptor.of_listWf hwf
  have hpos : s.w.pos = 0 := by rw [hw]; rfl
  obtain ⟨hwrote, hrecords⟩ := encodeRecords_wrote hds hfits (fun q _ => hzero q) henc
  obtain ⟨hmore, hfuel⟩ := more_of_recordCount hB hlo
  have hin := hwrote.inBounds
  rw [hpos] at hrecords hin
  rw [State.inBounds, ← hwrote.capacity] at hin
  have hready : t.fault = false := hwrote.fault.trans hf
  obtain ⟨u, hissue, hbuf, hcap, huf, hupos, hulen⟩ := issue_uinit (len := len) hready (by omega)
  have hahead : RecordsAhead ds xss u :=
    { fault := huf
      inBounds := by rw [hupos, State.inBounds, hcap]; exact hin
      holds := State.holdsRecords_congr hbuf (hupos.symm ▸ hrecords)
      more := by simpa [hupos, hulen] using hmore
      done := by simpa [hupos, hulen] using hhi }
  obtain ⟨t', ht'⟩ := decodeLoop_of_recordsAhead hds hfuel hfits hahead
  refine ⟨t', ?_⟩
  rw [decodeAll, if_pos hwf, hissue]
  exact ht'

end Sys2Proof.Machine
end

section
/-! PROOFS. The packer (41_packer.md R100 to R108; 20_memory.md R44, R47): PNEW and PRST on a block without a fault, and what an ADD
or an ADDS that fits leaves in each bit and in each byte of the buffer. -/

namespace Sys2Proof.Machine

/-! ## PNEW and PRST -/

/-- R100: a PNEW while FAULT = 0 changes the buffer, W and the answer alone; it zeroes the bytes below N, leaves the others, and
keeps the list canonical (log 9). -/
theorem exec_pnew_ok {s : State} (hf : s.fault = false) :
    ∃ m, exec .pnew s = .next (((s.setBuf m).setW Cursor.origin).respond .ok 0) ∧
      (∀ a, m.read a = if a < s.capacity.bytes then 0 else s.buf.read a) ∧ (s.buf.wf → m.wf) := by
  obtain ⟨m, e, hread, hwf, -⟩ := clearFrom_spec s.capacity.bytes 0 s (by omega)
  refine ⟨m, ?_, by simpa using hread, hwf⟩
  show gated s (complete ((clearFrom s.capacity.bytes 0 s).map _)) = _
  rw [gated_of_ready hf, e]
  rfl

/-- Settles O23: the loop of PNEW runs over all N bytes, so below N no old byte is left. -/
theorem pnewClearsBufferAndCursor : Obligations.PnewClearsBufferAndCursor := by
  intro s hf
  obtain ⟨m, e, hread, -⟩ := exec_pnew_ok hf
  refine ⟨_, e, rfl, fun j hj => ?_, fun j hj => ?_⟩
  · exact (hread j).trans (if_pos hj)
  · exact (hread j).trans (if_neg (Nat.not_lt.2 hj))

/-- R31, log 9: an address above all listed ones reads as 0x00. -/
theorem Memory.read_of_listed_lt {m : Memory} {l a : Nat} (h : ∀ c ∈ m, c.1 < l) (ha : l ≤ a) : m.read a = 0 :=
  Memory.read_of_not_listed fun c hc => Nat.ne_of_lt ((h c hc).trans_le ha)

/-- Settles O24: every address reads as 0x00 after PNEW, those at N or above because the invariant lists none of them, and the only
canonical list that reads so is the empty one. -/
theorem pnewRestoresResetBuffer : Obligations.PnewRestoresResetBuffer := by
  intro s hs hf
  obtain ⟨m, e, hread, hwf⟩ := exec_pnew_ok hf
  obtain ⟨-, -, -, -, hcanonical, hlisted⟩ := hs
  have hm : m = [] := Memory.eq_of_read_eq (hwf hcanonical) Memory.wf_nil fun a => by
    rw [hread, Memory.read_nil]
    split
    · rfl
    · next h => exact Memory.read_of_listed_lt hlisted (Nat.not_lt.1 h)
  rw [e, hm]
  rfl

/-- Settles O25: PRST has no memory access, so its state is the one written in the statement. -/
theorem prstMovesOnlyTheCursor : Obligations.PrstMovesOnlyTheCursor := fun _ hf => gated_of_ready hf _

/-! ## The bytes outside an extent -/

section
variable {s t : State} {a p k : Nat}

/-- R41: a byte is its eight bits. -/
theorem State.read_eq_of_bitAt_eq (h : ∀ i < 8, t.bitAt (8 * a + i) = s.bitAt (8 * a + i)) : t.buf.read a = s.buf.read a := by
  refine BitVec.eq_of_toNat_eq (Nat.eq_of_testBit_eq fun i => ?_)
  rw [State.read_testBit, State.read_testBit]
  by_cases hi : i < 8
  · rw [h i hi]
  · simp [hi]

/-- R44: where the bits outside an extent stay, so do the bytes that the extent does not touch. -/
theorem State.read_eq_of_not_touched (h : ∀ q, q < p ∨ p + k ≤ q → t.bitAt q = s.bitAt q)
    (ha : ¬ (k ≠ 0 ∧ p / 8 ≤ a ∧ a ≤ (p + k - 1) / 8)) : t.buf.read a = s.buf.read a :=
  State.read_eq_of_bitAt_eq fun i hi => h _ (by omega)

end

/-! ## ADD and ADDS -/

/-- Settles O26: the bits are those of `exec_add_ok`; the bytes follow, since outside the extent no bit is written. -/
theorem addOrsFieldAtCursor : Obligations.AddOrsFieldAtCursor := by
  intro n v s hf hn hin
  obtain ⟨m, e, hbits⟩ := exec_add_ok hf hn v hin
  simp only [writtenBit_eq_ite] at hbits
  refine ⟨_, e, rfl, fun q => ?_, fun a ha => State.read_eq_of_not_touched (fun q hq => ?_) ha⟩
  · refine (hbits q).trans ?_
    split
    · rfl
    · exact Bool.or_false _
  · refine (hbits q).trans ?_
    rw [if_neg (by omega), Bool.or_false]

/-- Settles O27. The sign is a bit of its own before the magnitude, so the extent has n + 1 bits; the bytes follow as
in O26. -/
theorem addsOrsSignAndMagnitude : Obligations.AddsOrsSignAndMagnitude := by
  intro n d s hf hn hfit
  obtain ⟨m, e, hbits⟩ := exec_adds_ok hf hn d (.inr hfit)
  simp only [signedOf_eq_toInt, writtenBit_eq_ite] at hbits
  refine ⟨_, e, rfl, fun q => (hbits q).trans ?_, fun a ha =>
    State.read_eq_of_not_touched (p := s.w.pos) (k := n.toNat + 1) (fun q hq => (hbits q).trans ?_) fun ⟨_, h⟩ => ha h⟩
  · by_cases hsign : q = s.w.pos
    · rw [if_pos hsign, if_neg (by omega)]
      simp [hsign]
    · by_cases hmag : s.w.pos < q ∧ q ≤ s.w.pos + n.toNat
      · rw [if_neg hsign, if_pos hmag, if_pos (by omega), magnitude_getLsbD _ (by omega), Nat.sub_add_eq]
        simp [hsign]
      · rw [if_neg hsign, if_neg hmag, if_neg (by omega)]
        simp [hsign]
  · have hsign : q ≠ s.w.pos := by omega
    rw [if_neg (by omega)]
    simp [hsign]

end Sys2Proof.Machine
end

section
/-! PROOFS. The unpacker (42_unpacker.md R120 to R127) and the operands past the buffer (43_host_access.md R150, R152): UINIT, READ and
READS on a block without a fault. -/

namespace Sys2Proof.Machine

/-! ## A command whose operand is checked against N -/

section
variable {p : Prop} [Decidable p] {c : Cause} {s : State} {r : Result} (hf : s.fault = false)
include hf

/-- R171: the precise fault state, written out field by field. -/
theorem gated_check_raises (h : p) :
    gated s (if p then raise c s else r) = .next { s with fault := true, cause := c, answer := some ⟨.faulted, 0⟩ } := by
  rw [gated_of_ready hf, if_pos h]
  rfl

theorem gated_check_passes (h : ¬ p) : gated s (if p then raise c s else r) = r := by
  rw [gated_of_ready hf, if_neg h]

end

/-- Settles O22: UINIT, BRD and BWR are each one check of the operand against N, behind the gate. -/
theorem operandPastTheBufferFaults : Obligations.OperandPastTheBufferFaults := fun _ hf =>
  ⟨fun _ hlen => gated_check_raises hf hlen,
    fun _ _ haddr => ⟨gated_check_raises hf haddr, gated_check_raises hf haddr⟩⟩

/-! ## UINIT -/

/-- R120: a UINIT of at most N while FAULT = 0 changes U, ULEN and the answer alone. -/
theorem exec_uinit_ok {len : Word} {s : State} (hf : s.fault = false) (hlen : len.toNat ≤ s.capacity.bytes) :
    exec (.uinit len) s = .next (((s.setU Cursor.origin).setUlen (BitVec.ofNat 23 len.toNat)).respond .ok 0) :=
  gated_check_passes hf (Nat.not_lt.2 hlen)

/-- R7, R24: the 23 bits of ULEN hold every length of at most N. -/
theorem ulen_toNat_of_le {l : Nat} {n : Capacity} (h : l ≤ n.bytes) : (BitVec.ofNat 23 l).toNat = l := by
  have hmax := n.le_max
  rw [BitVec.toNat_ofNat, Nat.mod_eq_of_lt (by omega)]

/-- Settles O31: the length survives its narrowing to ULEN, and U is at byte 0, so MORE compares 0 with the length. -/
theorem uinitCreatesUnpacker : Obligations.UinitCreatesUnpacker := by
  intro len s hf hlen
  have hulen : (BitVec.ofNat 23 len.toNat).toNat = len.toNat := ulen_toNat_of_le hlen
  refine ⟨_, exec_uinit_ok hf hlen, rfl, hulen, ?_⟩
  show decide (0 < (BitVec.ofNat 23 len.toNat).toNat) = _
  rw [hulen]

/-! ## READ and READS -/

/-- Settles O32: `exec_read_ok`, with U's advance written as the cursor at pos(U) + NBITS (R82). -/
theorem readReturnsFieldAtCursor : Obligations.ReadReturnsFieldAtCursor := fun _ _ hf hn hin =>
  exec_read_ok hf hn hin

/-- Settles O33: the number m is the magnitude word of `exec_reads_ok`, of which it has all the bits. -/
theorem readsReturnsSignedField : Obligations.ReadsReturnsSignedField := by
  intro n s hf hn hfit
  obtain ⟨m, hbits, e⟩ := exec_reads_ok hf hn (.inr hfit)
  refine ⟨m.toNat, fun i => ?_, e⟩
  rw [BitVec.testBit_toNat, hbits]

end Sys2Proof.Machine
end

section
/-! PROOFS. The byte accesses below N (43_host_access.md R150, R152): BRD and BWR on a block without a fault. -/

namespace Sys2Proof.Machine

/-- R150: a BRD below N while FAULT = 0 changes the answer alone. -/
theorem exec_brd_ok {a : BitVec 22} {s : State} (hf : s.fault = false) (ha : a.toNat < s.capacity.bytes) :
    exec (.brd a) s = .next (s.respond .ok (zextByte (s.buf.read a.toNat))) := by
  refine (gated_check_passes hf (Nat.not_le.2 ha)).trans ?_
  rw [byteAddr, memRead_of_lt ha]
  rfl

/-- R152: a BWR below N while FAULT = 0 is one store, answered OK. -/
theorem exec_bwr_ok {a : BitVec 22} {s : State} (b : Byte) (hf : s.fault = false) (ha : a.toNat < s.capacity.bytes) :
    exec (.bwr a b) s = .next ((s.setBuf (s.buf.write a.toNat b)).respond .ok 0) := by
  refine (gated_check_passes hf (Nat.not_le.2 ha)).trans ?_
  rw [byteAddr, memWrite_of_lt b ha]
  rfl

/-- R30: a byte on the result port keeps its value. -/
theorem zextByte_toNat (b : Byte) : (zextByte b).toNat = b.toNat :=
  BitVec.toNat_setWidth_of_le (by decide)

/-- Settles O43: the result is the byte at ADDR, and zero-extension keeps its value. -/
theorem brdReturnsByte : Obligations.BrdReturnsByte := fun _ _ hf ha =>
  ⟨_, exec_brd_ok hf ha, zextByte_toNat _⟩

/-- Settles O44: the two clauses on bytes are the buffer's laws of one store, at its own address and at every other one. -/
theorem bwrReplacesByte : Obligations.BwrReplacesByte := fun _ b s hf ha =>
  ⟨_, exec_bwr_ok b hf ha, rfl, Memory.read_write_self .., fun _ hj => Memory.read_write_ne s.buf b hj⟩

end Sys2Proof.Machine
end

section
/-! PROOFS. How far the host's procedures move the two cursors (45_host_sequencing.md R160 to R163, R165): a record that is written
whole moves W by B(D), a record that is read moves U by B(D), and so DecodeAll ends within its bound with the records of R163. -/

namespace Sys2Proof

/-- R161: the descriptor lists that DecodeAll does not accept. -/
theorem Descriptor.listWf_eq_false_iff (ds : List Descriptor) :
    Descriptor.listWf ds = false ↔ ds = [] ∨ ∃ d ∈ ds, d.width = 0 ∨ 57 < d.width := by
  have hwf (d : Descriptor) : d.wf = false ↔ d.width = 0 ∨ 57 < d.width := by
    rw [← Bool.not_eq_true, Descriptor.wf_iff]
    omega
  simp only [Descriptor.listWf, Bool.and_eq_false_iff, Bool.not_eq_false', List.isEmpty_iff, List.all_eq_false,
    Bool.not_eq_true, hwf]

end Sys2Proof

namespace Sys2Proof.Machine

/-! ## The host's command -/

theorem except_bind_eq_ok_iff {ε α β : Type} {e : Except ε α} {f : α → Except ε β} {y : β} :
    e.bind f = .ok y ↔ ∃ x, e = .ok x ∧ f x = .ok y := by
  cases e <;> simp [Except.bind]

theorem except_map_eq_ok_iff {ε α β : Type} {e : Except ε α} {f : α → β} {y : β} :
    e.map f = .ok y ↔ ∃ x, e = .ok x ∧ f x = y := by
  cases e <;> simp [Except.map]

/-- R171, R174: a command that is no query and answers OK finds and leaves FAULT = 0. -/
theorem exec_of_issue_ok {i : Instr} (hi : isQuery i = false) {s t : State} {x : Word} (h : issue i s = .ok (x, t)) :
    exec i s = .next t ∧ s.fault = false ∧ t.fault = false := by
  obtain ⟨hexec, hans⟩ := issue_eq_ok_iff.1 h
  refine ⟨hexec, ?_⟩
  cases (exec_answers i s).of_eq_next hexec with
  | rejected | faulted => simp at hans
  | ok t hrun hfault _ _ =>
    have hs : s.fault = false := by simpa [hi] using hrun
    exact ⟨hs, hfault.trans hs⟩

/-! ## Writing a record -/

/-- R82, R160: a field that is written moves W by its bits. -/
theorem put_moves_w {d : Descriptor} (hd : d.wf = true) {x : Int} {s t : State} {y : Word}
    (h : issue (expandLine (.put d x)) s = .ok (y, t)) : t.w.pos = s.w.pos + d.bits := by
  obtain ⟨w, signed⟩ := d
  obtain ⟨n, rfl, -⟩ := Descriptor.exists_nbits hd
  obtain ⟨hunsigned, hsigned⟩ := expandLine_put n x
  cases signed with
  | false =>
    obtain ⟨hexec, hs, ht⟩ := exec_of_issue_ok rfl (hunsigned ▸ h)
    obtain ⟨hadd, -, -, -⟩ := bitCommandsAdvanceTheirCursor n (portWord x) s t hs ht
    exact (hadd hexec).2
  | true =>
    obtain ⟨hexec, hs, ht⟩ := exec_of_issue_ok rfl (hsigned ▸ h)
    obtain ⟨-, hadds, -, -⟩ := bitCommandsAdvanceTheirCursor n (portWord x) s t hs ht
    exact (hadds hexec).2

theorem putFields_moves_w {fs : List (Descriptor × Int)} :
    ∀ {s t : State}, (∀ f ∈ fs, f.1.wf = true) → putFields fs s = .written t →
      t.w.pos = s.w.pos + Descriptor.recordBits (fs.map Prod.fst) := by
  induction fs with
  | nil =>
    intro s t _ h
    cases h
    rfl
  | cons f fs ih =>
    intro s t hfs h
    obtain ⟨hf, hfs⟩ := List.forall_mem_cons.1 hfs
    obtain ⟨y, s', hissue, hrest⟩ := putFields_cons_eq_written h
    rw [ih hfs hrest, put_moves_w hf hissue, List.map_cons, Descriptor.recordBits_cons, Nat.add_assoc]

/-- R160: a record that is written has passed the procedure's checks. -/
theorem checks_of_encodeRecord {ds : List Descriptor} {xs : List Int} {s t : State} (h : encodeRecord ds xs s = .written t) :
    ds.length = xs.length ∧ ∀ f ∈ ds.zip xs, f.1.wf = true := by
  rw [encodeRecord] at h
  split at h
  · next hok =>
    obtain ⟨hlen, hall⟩ := hok
    exact ⟨hlen, fun f hf => (Bool.and_eq_true_iff.1 (List.all_eq_true.1 hall f hf)).1⟩
  · cases h

/-- Settles O50: W moves by the bits of each field in turn, and there is one field for each descriptor. -/
theorem recordOccupiesItsBits : Obligations.RecordOccupiesItsBits := by
  intro ds xs s t h
  obtain ⟨hlen, hwf⟩ := checks_of_encodeRecord h
  have hmoved := putFields_moves_w hwf (putFields_of_encodeRecord h)
  rwa [List.map_fst_zip hlen.le] at hmoved

/-! ## Reading a record -/

/-- From `s` to `t` the host has moved U by `k` bits, under the same ULEN. -/
structure MovedU (s t : State) (k : Nat) : Prop where
  ulen : t.ulen = s.ulen
  pos : t.u.pos = s.u.pos + k

theorem MovedU.of_respond {s t : State} {k : Nat} {r : Resp} {x : Word} (h : MovedU (s.respond r x) t k) : MovedU s t k :=
  ⟨h.ulen, h.pos⟩

/-- R24, R128: a read that does not depend on ULEN does not change it either. -/
theorem ulen_of_read {n : BitVec 6} {s t : State} :
    (exec (.read n) s = .next t → t.ulen = s.ulen) ∧ (exec (.reads n) s = .next t → t.ulen = s.ulen) := by
  obtain ⟨hread, hreads⟩ := ulenDoesNotLimitReads n s.ulen s t
  have of_same {r : Result} (h : r = .next t) (h' : r = .next { t with ulen := s.ulen }) : t.ulen = s.ulen := by
    have ht : t = { t with ulen := s.ulen } := Host.Outcome.next.inj (h.symm.trans h')
    exact (congrArg State.ulen ht).trans rfl
  exact ⟨fun h => of_same h (hread h), fun h => of_same h (hreads h)⟩

/-- R82, R161: a field that is read moves U by its bits. -/
theorem get_movedU {d : Descriptor} (hd : d.wf = true) {s t : State} {y : Word}
    (h : issue (expandLine (.get d)) s = .ok (y, t)) : MovedU s t d.bits := by
  obtain ⟨w, signed⟩ := d
  obtain ⟨n, rfl, -⟩ := Descriptor.exists_nbits hd
  obtain ⟨hunsigned, hsigned⟩ := expandLine_get n
  cases signed with
  | false =>
    obtain ⟨hexec, hs, ht⟩ := exec_of_issue_ok rfl (hunsigned ▸ h)
    obtain ⟨-, -, hread, -⟩ := bitCommandsAdvanceTheirCursor n 0 s t hs ht
    exact ⟨ulen_of_read.1 hexec, (hread hexec).2⟩
  | true =>
    obtain ⟨hexec, hs, ht⟩ := exec_of_issue_ok rfl (hsigned ▸ h)
    obtain ⟨-, -, -, hreads⟩ := bitCommandsAdvanceTheirCursor n 0 s t hs ht
    exact ⟨ulen_of_read.2 hexec, (hreads hexec).2⟩

theorem getField_movedU {d : Descriptor} (hd : d.wf = true) {s t : State} {x : Int} (h : getField d s = .ok (x, t)) :
    MovedU s t d.bits := by
  rw [getField] at h
  obtain ⟨⟨y, t'⟩, hissue, h⟩ := except_map_eq_ok_iff.1 h
  cases h
  exact get_movedU hd hissue

theorem getRecord_cons_eq_ok {d : Descriptor} {ds : List Descriptor} {s t : State} {xs : List Int}
    (h : getRecord (d :: ds) s = .ok (xs, t)) :
    ∃ x s' ys, getField d s = .ok (x, s') ∧ getRecord ds s' = .ok (ys, t) := by
  rw [getRecord] at h
  split at h
  · cases h
  · next x s' hfield =>
    obtain ⟨⟨ys, t'⟩, hrest, h⟩ := except_map_eq_ok_iff.1 h
    cases h
    exact ⟨x, s', ys, hfield, hrest⟩

/-- R160, R162: a record that is read to its last field moves U by B(D). -/
theorem getRecord_movedU {ds : List Descriptor} :
    ∀ {s t : State} {xs : List Int}, (∀ d ∈ ds, d.wf = true) → getRecord ds s = .ok (xs, t) →
      MovedU s t (Descriptor.recordBits ds) := by
  induction ds with
  | nil =>
    intro s t xs _ h
    cases h
    exact ⟨rfl, rfl⟩
  | cons d ds ih =>
    intro s t xs hds h
    obtain ⟨hd, hds⟩ := List.forall_mem_cons.1 hds
    obtain ⟨x, s', ys, hfield, hrest⟩ := getRecord_cons_eq_ok h
    have hfirst := getField_movedU hd hfield
    have hlater := ih hds hrest
    exact ⟨hlater.ulen.trans hfirst.ulen, by rw [hlater.pos, hfirst.pos, Descriptor.recordBits_cons, Nat.add_assoc]⟩

/-! ## The loop of DecodeAll -/

/-- A record read before the ones that the rest of the loop reads. -/
def Decoding.cons (x : List Int) : Decoding → Decoding
  | .records rs t => .records (x :: rs) t
  | .fault t => .fault t
  | .refused => .refused
  | .unfinished t => .unfinished t

/-- R161: one turn of the loop. With MORE = 0 it ends; else it reads a record, and either that faults or the loop goes on. -/
theorem decodeLoop_succ (fuel : Nat) (ds : List Descriptor) (s : State) :
    (s.ulen.toNat ≤ s.u.pos / 8 ∧ decodeLoop (fuel + 1) ds s = .records [] (s.respond .ok s.status)) ∨
    s.u.pos / 8 < s.ulen.toNat ∧ ((∃ s', decodeLoop (fuel + 1) ds s = .fault s') ∨
      ∃ xs s', getRecord ds (s.respond .ok s.status) = .ok (xs, s') ∧
        decodeLoop (fuel + 1) ds s = (decodeLoop fuel ds s').cons xs) := by
  simp only [decodeLoop, issue_stat, status_more, decide_eq_true_eq]
  by_cases hmore : s.u.pos / 8 < s.ulen.toNat
  · refine .inr ⟨hmore, ?_⟩
    rw [if_pos hmore]
    cases hrecord : getRecord ds (s.respond .ok s.status) with
    | error s' => exact .inl ⟨s', rfl⟩
    | ok r =>
      obtain ⟨xs, s'⟩ := r
      refine .inr ⟨xs, s', rfl, ?_⟩
      dsimp only
      cases decodeLoop fuel ds s' <;> rfl
  · exact .inl ⟨Nat.not_lt.1 hmore, if_neg hmore⟩

/-- R163, R165: where the loop may end from `s` with records of `b` bits: in a fault, or with as many records as it takes to bring U
from a byte below ULEN to one that is not. It does not run out, and only DecodeAll itself refuses. -/
def Decoding.endsAtUlen (b : Nat) (s : State) : Decoding → Prop
  | .records rs _ =>
    (∀ j < rs.length, (s.u.pos + j * b) / 8 < s.ulen.toNat) ∧ s.ulen.toNat ≤ (s.u.pos + rs.length * b) / 8
  | .fault _ => True
  | .refused => False
  | .unfinished _ => False

theorem Decoding.endsAtUlen_nil {b : Nat} {s t : State} (hdone : s.ulen.toNat ≤ s.u.pos / 8) :
    (Decoding.records [] t).endsAtUlen b s := ⟨nofun, by simpa using hdone⟩

theorem Decoding.endsAtUlen_cons {b : Nat} {s s' : State} (hmore : s.u.pos / 8 < s.ulen.toNat) (hmoved : MovedU s s' b)
    {r : Decoding} (hr : r.endsAtUlen b s') (xs : List Int) : (r.cons xs).endsAtUlen b s := by
  cases r with
  | fault | refused | unfinished => exact hr
  | records rs t =>
    obtain ⟨hbelow, hdone⟩ := hr
    rw [hmoved.ulen, hmoved.pos] at hdone
    rw [hmoved.ulen] at hbelow
    have hshift (j : Nat) : s.u.pos + b + j * b = s.u.pos + (j + 1) * b := by
      rw [Nat.succ_mul]
      omega
    refine ⟨fun j hj => ?_, by rwa [List.length_cons, ← hshift]⟩
    cases j with
    | zero => simpa using hmore
    | succ j =>
      have := hbelow j (Nat.lt_of_succ_lt_succ hj)
      rwa [hmoved.pos, hshift] at this

/-- R165: a turn that does not end the loop moves U by at least one bit, so the loop ends before its turns are used up if they are
more than the bits between U and byte ULEN. -/
theorem decodeLoop_endsAtUlen {ds : List Descriptor} (hds : ∀ d ∈ ds, d.wf = true) (hB : 0 < Descriptor.recordBits ds)
    (fuel : Nat) : ∀ s : State, 8 * s.ulen.toNat ≤ fuel + s.u.pos →
      (decodeLoop (fuel + 1) ds s).endsAtUlen (Descriptor.recordBits ds) s := by
  induction fuel with
  | zero =>
    intro s hfuel
    obtain ⟨hdone, hturn⟩ | ⟨hmore, -⟩ := decodeLoop_succ 0 ds s
    · exact hturn ▸ Decoding.endsAtUlen_nil hdone
    · omega
  | succ fuel ih =>
    intro s hfuel
    obtain ⟨hdone, hturn⟩ | ⟨hmore, ⟨s', hturn⟩ | ⟨xs, s', hrecord, hturn⟩⟩ := decodeLoop_succ (fuel + 1) ds s
    · exact hturn ▸ Decoding.endsAtUlen_nil hdone
    · exact hturn ▸ trivial
    · have hmoved : MovedU s s' (Descriptor.recordBits ds) := (getRecord_movedU hds hrecord).of_respond
      have hleft : 8 * s'.ulen.toNat ≤ fuel + s'.u.pos := by
        rw [hmoved.ulen, hmoved.pos]
        omega
      exact hturn ▸ Decoding.endsAtUlen_cons hmore hmoved (ih s' hleft) xs

/-! ## DecodeAll -/

/-- R120: a UINIT that answers OK leaves U at the origin and the length in ULEN. -/
theorem uinit_of_issue_ok {len : Word} {s t : State} {x : Word} (h : issue (.uinit len) s = .ok (x, t)) :
    t.u.pos = 0 ∧ t.ulen.toNat = len.toNat := by
  obtain ⟨hexec, hs, ht⟩ := exec_of_issue_ok rfl h
  have hlen : len.toNat ≤ s.capacity.bytes := Nat.not_lt.1 fun hbad => by
    cases hexec.symm.trans ((operandPastTheBufferFaults s hs).1 len hbad)
    simp at ht
  obtain ⟨t', ht', -, -, -, hpos, hulen⟩ := issue_uinit hs hlen
  cases h.symm.trans ht'
  exact ⟨hpos, hulen⟩

/-- R161, R165: DecodeAll of an accepted list faults, or its loop ends as the record count says from bit 0 under ULEN = L. -/
theorem decodeAll_cases {ds : List Descriptor} (hwf : Descriptor.listWf ds = true) (len : Word) (s : State) :
    (∃ t, decodeAll ds len s = .fault t) ∨
    ∃ t : State, t.u.pos = 0 ∧ t.ulen.toNat = len.toNat ∧ (decodeAll ds len s).endsAtUlen (Descriptor.recordBits ds) t := by
  rw [decodeAll, if_pos hwf]
  cases hissue : issue (.uinit len) s with
  | error t => exact .inl ⟨t, rfl⟩
  | ok r =>
    obtain ⟨x, t⟩ := r
    obtain ⟨hpos, hulen⟩ := uinit_of_issue_ok hissue
    obtain ⟨hds, hB⟩ := Descriptor.of_listWf hwf
    exact .inr ⟨t, hpos, hulen, decodeLoop_endsAtUlen hds hB _ t (by omega)⟩

theorem decodeAll_of_not_wf {ds : List Descriptor} (hwf : Descriptor.listWf ds = false) (len : Word) (s : State) :
    decodeAll ds len s = .refused := by
  rw [decodeAll, if_neg (by simp [hwf])]

/-- Settles O51: an accepted list leads to a fault or to the records up to ULEN, which are neither of the two ends in question. -/
theorem decodeAllRefusesOrEnds : Obligations.DecodeAllRefusesOrEnds := by
  intro ds len s
  rw [← Descriptor.listWf_eq_false_iff]
  cases hwf : Descriptor.listWf ds with
  | false =>
    rw [decodeAll_of_not_wf hwf]
    exact ⟨iff_of_true rfl rfl, nofun⟩
  | true =>
    obtain ⟨t, hfault⟩ | ⟨t, -, -, hends⟩ := decodeAll_cases hwf len s
    · rw [hfault]
      exact ⟨iff_of_false nofun nofun, nofun⟩
    · exact ⟨iff_of_false (fun h => (h ▸ hends : Decoding.endsAtUlen _ t .refused)) nofun,
        fun t' h => (h ▸ hends : Decoding.endsAtUlen _ t (.unfinished t'))⟩

/-- R163: the floors of j*B/8 rise with j, so only one count has MORE = 1 before each of its records and MORE = 0 after the last. -/
theorem recordCount_iff {b l n : Nat} (hbelow : ∀ j < n, j * b / 8 < l) (hdone : l ≤ n * b / 8) {k : Nat} (hk : 1 ≤ k) :
    n = k ↔ (k - 1) * b / 8 < l ∧ l ≤ k * b / 8 := by
  constructor
  · rintro rfl
    exact ⟨hbelow _ (by omega), hdone⟩
  · rintro ⟨hlo, hhi⟩
    obtain hlt | heq | hgt := Nat.lt_trichotomy n k
    · have : n * b / 8 ≤ (k - 1) * b / 8 := Nat.div_le_div_right (Nat.mul_le_mul_right b (by omega))
      omega
    · exact heq
    · have := hbelow k hgt
      omega

/-- Settles O52: the loop stops at the first record boundary whose byte is not below ULEN = L. -/
theorem decodeAllRecordCount : Obligations.DecodeAllRecordCount := by
  intro ds len s t rs h k hk
  cases hwf : Descriptor.listWf ds with
  | false => cases (decodeAll_of_not_wf hwf len s).symm.trans h
  | true =>
    obtain ⟨t', hfault⟩ | ⟨t', hpos, hulen, hends⟩ := decodeAll_cases hwf len s
    · cases hfault.symm.trans h
    · rw [h] at hends
      obtain ⟨hbelow, hdone⟩ := hends
      simp only [hpos, hulen, Nat.zero_add] at hbelow hdone
      exact recordCount_iff hbelow hdone hk

end Sys2Proof.Machine
end

section
/-! PROOFS. Moving the wire bytes from one block to another (45_host_sequencing.md R164): what the `brd` lines take out of a buffer, and
where the `bwr` lines put it. -/

namespace Sys2Proof.Machine

/-! ## The two lines -/

/-- R62, R71: an address that the assembler accepts goes into the ADDR field unchanged. -/
theorem toNat_addr {a : Nat} (ha : a < 4194304) : (BitVec.ofInt 22 a).toNat = a := by
  rw [BitVec.ofInt_natCast, BitVec.toNat_ofNat, Nat.mod_eq_of_lt ha]

theorem issueLine_eq_ok_iff {l : AsmLine} {s : State} {r : Word × State} :
    issueLine l s = .ok r ↔ l.wf = true ∧ issue (expandLine l) s = .ok r := by
  rw [issueLine]
  split
  · next hwf => simp [hwf]
  · next hwf => simp [hwf]

/-- R150: a `brd a` that answers OK gives the byte at `a` and leaves the buffer alone. -/
theorem brd_line_ok {a : Nat} {s t : State} {x : Word} (h : issueLine (.brd a) s = .ok (x, t)) :
    x.setWidth 8 = s.buf.read a ∧ t.buf = s.buf := by
  obtain ⟨hwf, hissue⟩ := issueLine_eq_ok_iff.1 h
  obtain ⟨-, hmax⟩ := (addrOk_iff a).1 hwf
  have haddr : (BitVec.ofInt 22 a).toNat = a := toNat_addr (by omega)
  obtain ⟨hexec, hs, ht⟩ := exec_of_issue_ok rfl hissue
  have ha : a < s.capacity.bytes := Nat.not_le.1 fun hbad => by
    cases hexec.symm.trans (((operandPastTheBufferFaults s hs).2 (BitVec.ofInt 22 a) 0 (by rwa [haddr])).1)
    simp at ht
  have hbyte := issue_of_exec (exec_brd_ok (a := BitVec.ofInt 22 a) hs (by rwa [haddr]))
  cases hissue.symm.trans hbyte
  exact ⟨by rw [haddr, zextByte]; simp, rfl⟩

/-- R152: below N, `bwr a, b` stores the byte `b` at `a`. -/
theorem bwr_line {a : Nat} {s : State} (hf : s.fault = false) (ha : a < s.capacity.bytes) (b : Byte) :
    issueLine (.bwr a b.toNat) s = .ok (0, (s.setBuf (s.buf.write a b)).respond .ok 0) := by
  have hmax : a < 4194304 := ha.trans_le s.capacity.le_max
  have haddr := toNat_addr hmax
  have hok : AsmLine.addrOk a = true := (addrOk_iff a).2 ⟨by omega, by omega⟩
  have hwf : AsmLine.wf (.bwr a b.toNat) = true := by
    simpa [AsmLine.wf, hok] using Nat.le_of_lt_succ b.isLt
  have hexec : exec (expandLine (.bwr a b.toNat)) s = _ :=
    exec_bwr_ok (a := BitVec.ofInt 22 a) (BitVec.ofInt 8 b.toNat) hf (by rwa [haddr])
  rw [haddr] at hexec
  have hbyte : BitVec.ofInt 8 b.toNat = b := by simp
  rw [hbyte] at hexec
  exact issueLine_eq_ok_iff.2 ⟨hwf, issue_of_exec hexec⟩

/-! ## The two loops

One turn of each loop, as an equation. The loops cannot be unfolded as they stand: checking the equation would go on to evaluate the
line's own check that the address is below 2^22, which for a variable address recurses 2^22 times. So `issueLine` becomes a variable
`send` before the loop is unfolded. -/

theorem loadBytes_cons (a : Nat) (b : Byte) (bs : List Byte) (s : State) :
    loadBytes a (b :: bs) s = (issueLine (.bwr a b.toNat) s).bind fun r => loadBytes (a + 1) bs r.2 := by
  obtain ⟨send, hsend⟩ : ∃ send, send = issueLine := ⟨_, rfl⟩
  obtain ⟨load, hload⟩ : ∃ load, load = loadBytes := ⟨_, rfl⟩
  rw [← hsend, ← hload]
  delta loadBytes loadBytes._f at hload
  rw [← hsend] at hload
  have hturn : load a (b :: bs) s = match send (.bwr a b.toNat) s with
      | .error t => .error t
      | .ok (_, t) => load (a + 1) bs t := by
    subst hload
    rfl
  rw [hturn]
  cases send (.bwr a b.toNat) s <;> rfl

theorem takeBytes_succ (count a : Nat) (s : State) :
    takeBytes (count + 1) a s = (issueLine (.brd a) s).bind fun r =>
      (takeBytes count (a + 1) r.2).map fun q => (r.1.setWidth 8 :: q.1, q.2) := by
  obtain ⟨send, hsend⟩ : ∃ send, send = issueLine := ⟨_, rfl⟩
  obtain ⟨take, htake⟩ : ∃ take, take = takeBytes := ⟨_, rfl⟩
  rw [← hsend, ← htake]
  delta takeBytes takeBytes._f at htake
  rw [← hsend] at htake
  have hturn : take (count + 1) a s = match send (.brd a) s with
      | .error t => .error t
      | .ok (x, t) => (take count (a + 1) t).map fun q => (x.setWidth 8 :: q.1, q.2) := by
    subst htake
    rfl
  rw [hturn]
  cases send (.brd a) s <;> rfl

theorem takeBytes_succ_eq_ok {count a : Nat} {s t : State} {bs : List Byte} (h : takeBytes (count + 1) a s = .ok (bs, t)) :
    ∃ x s' bs', issueLine (.brd a) s = .ok (x, s') ∧ takeBytes count (a + 1) s' = .ok (bs', t) ∧ bs = x.setWidth 8 :: bs' := by
  rw [takeBytes_succ] at h
  obtain ⟨⟨x, s'⟩, hline, h⟩ := except_bind_eq_ok_iff.1 h
  obtain ⟨⟨bs', t'⟩, hrest, h⟩ := except_map_eq_ok_iff.1 h
  cases h
  exact ⟨x, s', bs', hline, hrest, rfl⟩

/-- R164: the bytes that leave the block are those of its buffer, in order. -/
theorem takeBytes_eq_map {count : Nat} : ∀ {a : Nat} {s t : State} {bs : List Byte}, takeBytes count a s = .ok (bs, t) →
    bs = (List.range' a count).map s.buf.read := by
  induction count with
  | zero =>
    intro a s t bs h
    cases h
    rfl
  | succ count ih =>
    intro a s t bs h
    obtain ⟨x, s', bs', hline, hrest, rfl⟩ := takeBytes_succ_eq_ok h
    obtain ⟨hbyte, hbuf⟩ := brd_line_ok hline
    rw [ih hrest, hbyte, hbuf, List.range'_succ, List.map_cons]

/-- R164: the bytes that enter the block stand in its buffer from `a` on, and every other byte of it stays. -/
theorem loadBytes_ok (bs : List Byte) : ∀ {a : Nat} {s : State}, s.fault = false → a + bs.length ≤ s.capacity.bytes →
    ∃ t, loadBytes a bs s = .ok t ∧ (∀ i (hi : i < bs.length), t.buf.read (a + i) = bs[i]) ∧
      ∀ j, j < a ∨ a + bs.length ≤ j → t.buf.read j = s.buf.read j := by
  induction bs with
  | nil =>
    intro a s _ _
    exact ⟨s, rfl, nofun, fun _ _ => rfl⟩
  | cons b bs ih =>
    intro a s hf hfit
    rw [List.length_cons] at hfit
    obtain ⟨t, hload, hnew, hold⟩ := ih (a := a + 1) (s := (s.setBuf (s.buf.write a b)).respond .ok 0) hf
      (by show _ ≤ s.capacity.bytes; omega)
    refine ⟨t, ?_, fun i hi => ?_, fun j hj => ?_⟩
    · rw [loadBytes_cons, bwr_line hf (by omega) b]
      exact hload
    · cases i with
      | zero => exact (hold a (.inl (Nat.lt_succ_self a))).trans (Memory.read_write_self s.buf a b)
      | succ i =>
        rw [← Nat.add_assoc, Nat.add_right_comm]
        exact hnew i (Nat.lt_of_succ_lt_succ hi)
    · rw [List.length_cons] at hj
      exact (hold j (by omega)).trans (Memory.read_write_ne s.buf b (by omega))

/-- Settles O54: the list between the two blocks is the first one's buffer, byte for byte. -/
theorem wireBytesMoveUnchanged : Obligations.WireBytesMoveUnchanged := by
  intro count s s' r bs htake hf hzero hcount
  obtain rfl := takeBytes_eq_map htake
  have hlen : ((List.range' 0 count).map s.buf.read).length = count := by simp
  obtain ⟨r', hload, hnew, hold⟩ := loadBytes_ok ((List.range' 0 count).map s.buf.read) (a := 0) hf (by omega)
  refine ⟨r', hload, fun j hj => ?_, fun j hj => ?_⟩
  · have hj' : j < ((List.range' 0 count).map s.buf.read).length := by omega
    rw [← Nat.zero_add j, hnew j hj', List.getElem_map, List.getElem_range', Nat.one_mul]
  · exact (hold j (.inr (by omega))).trans (hzero j)

end Sys2Proof.Machine
end

section
/-! PROOFS. Faults (60_exceptions.md R170 to R178): which fault a command word raises and that raising it changes nothing else, the
fault gate, and that a faulted block stays as it is until reset. -/

namespace Sys2Proof.Machine

/-! ## The fault that a command raises -/

/-- R170, R171: the next state `t` of a block without a fault, where the table names the fault `c`. With NONE the command is answered
OK, and FAULT and CAUSE stay; with any other cause nothing but FAULT, CAUSE and the answer changes. -/
def RaisesOnly (s : State) (c : Cause) (t : State) : Prop :=
  (c = .none → t.fault = false ∧ t.cause = s.cause ∧ ∃ x, t.answer = some ⟨.ok, x⟩) ∧
  (c ≠ .none → t = { s with fault := true, cause := c, answer := some ⟨.faulted, 0⟩ })

theorem RaisesOnly.of_raise {s : State} {c : Cause} (hc : c ≠ .none) :
    RaisesOnly s c { s with fault := true, cause := c, answer := some ⟨.faulted, 0⟩ } :=
  ⟨fun h => absurd h hc, fun _ => rfl⟩

theorem raisesNone_of_ok {s t : State} {x : Word} {r : Result} (hr : r = .next (t.respond .ok x)) (hfault : t.fault = false)
    (hcause : t.cause = s.cause) : EndsIn (RaisesOnly s .none) r :=
  ⟨_, hr, fun _ => ⟨hfault, hcause, x, rfl⟩, fun h => absurd rfl h⟩

/-- R171: FAULT = 1 afterwards shows that a fault was raised. -/
theorem RaisesOnly.precise {s t : State} {c : Cause} (h : RaisesOnly s c t) (ht : t.fault = true) :
    t.cause ≠ .none ∧ t = { s with fault := true, cause := t.cause, answer := some ⟨.faulted, 0⟩ } := by
  obtain ⟨hok, hraised⟩ := h
  have hc : c ≠ .none := fun hnone => by simp [(hok hnone).1] at ht
  cases hraised hc
  exact ⟨hc, rfl⟩

section
variable {s : State} (hf : s.fault = false)
include hf

/-- R175: the table asks for the width first and for the extent second; `out` is how it says that the extent does not fit. -/
theorem gated_bitCommand_raisesOnly {o : Cause} {p n k : Nat} {e : Except Fault (Word × State)} {out : Prop} [Decidable out]
    (ho : o ≠ .none) (hout : out ↔ ¬ s.inBounds p k)
    (hok : n ≤ 57 → s.inBounds p k → EndsIn (RaisesOnly s .none) (gated s (bitCommand o p n k s e))) :
    EndsIn (RaisesOnly s (if 57 < n then .badWidth else if out then o else .none)) (gated s (bitCommand o p n k s e)) := by
  by_cases hn : 57 < n
  · rw [if_pos hn]
    exact ⟨_, gated_bitCommand_badWidth hf hn .., .of_raise (by decide)⟩
  · have hn' : n ≤ 57 := Nat.le_of_not_lt hn
    rw [if_neg hn]
    by_cases hfit : s.inBounds p k
    · rw [if_neg fun h => hout.1 h hfit]
      exact hok hn' hfit
    · rw [if_pos (hout.2 hfit), gated_of_ready hf, bitCommand_overflow hn' hfit]
      exact endsIn_raise (.of_raise ho)

theorem gated_check_raisesOnly {p : Prop} [Decidable p] {c : Cause} {r : Result} (hc : c ≠ .none)
    (hok : ¬ p → EndsIn (RaisesOnly s .none) (gated s (if p then raise c s else r))) :
    EndsIn (RaisesOnly s (if p then c else .none)) (gated s (if p then raise c s else r)) := by
  by_cases h : p
  · rw [gated_check_raises hf h, if_pos h]
    exact endsIn_next (.of_raise hc)
  · rw [if_neg h]
    exact hok h

theorem exec_add_raisesOnly (n : BitVec 6) (v : Word) : EndsIn (RaisesOnly s (faultOf s (.add n v))) (exec (.add n v) s) := by
  refine gated_bitCommand_raisesOnly hf (by decide) (by unfold State.inBounds width; omega) fun hn hin => ?_
  obtain ⟨m, e, -⟩ := exec_add_ok hf hn v hin
  exact raisesNone_of_ok e hf rfl

theorem exec_adds_raisesOnly (n : BitVec 6) (d : Word) : EndsIn (RaisesOnly s (faultOf s (.adds n d))) (exec (.adds n d) s) := by
  refine gated_bitCommand_raisesOnly hf (by decide) (by unfold State.inBounds width; omega) fun hn hin => ?_
  obtain ⟨m, e, -⟩ := exec_adds_ok hf hn d hin
  exact raisesNone_of_ok e hf rfl

theorem exec_read_raisesOnly (n : BitVec 6) : EndsIn (RaisesOnly s (faultOf s (.read n))) (exec (.read n) s) := by
  refine gated_bitCommand_raisesOnly hf (by decide) (by unfold State.inBounds width; omega) fun hn hin => ?_
  obtain ⟨r, e, -⟩ := exec_read_ok hf hn hin
  exact raisesNone_of_ok e hf rfl

theorem exec_reads_raisesOnly (n : BitVec 6) : EndsIn (RaisesOnly s (faultOf s (.reads n))) (exec (.reads n) s) := by
  refine gated_bitCommand_raisesOnly hf (by decide) (by unfold State.inBounds width; omega) fun hn hin => ?_
  obtain ⟨m, -, e⟩ := exec_reads_ok hf hn hin
  exact raisesNone_of_ok e hf rfl

theorem exec_raisesOnly (i : Instr) : EndsIn (RaisesOnly s (faultOf s i)) (exec i s) := by
  cases i with
  | stat | wpos | plen | rpos | ulenr => exact raisesNone_of_ok (query_eq s _) hf rfl
  | pnew =>
    obtain ⟨m, e, -⟩ := exec_pnew_ok hf
    exact raisesNone_of_ok e hf rfl
  | prst => exact raisesNone_of_ok (gated_of_ready hf _) hf rfl
  | add n v => exact exec_add_raisesOnly hf n v
  | adds n d => exact exec_adds_raisesOnly hf n d
  | uinit len => exact gated_check_raisesOnly hf (by decide) fun h => raisesNone_of_ok (exec_uinit_ok hf (Nat.le_of_not_lt h)) hf rfl
  | read n => exact exec_read_raisesOnly hf n
  | reads n => exact exec_reads_raisesOnly hf n
  | brd a => exact gated_check_raisesOnly hf (by decide) fun h => raisesNone_of_ok (exec_brd_ok hf (Nat.lt_of_not_le h)) hf rfl
  | bwr a b => exact gated_check_raisesOnly hf (by decide) fun h => raisesNone_of_ok (exec_bwr_ok b hf (Nat.lt_of_not_le h)) hf rfl

/-- R175: BAD_CMD comes before the checks of the commands, as a word that does not decode is no command's. -/
theorem serveCommand_raisesOnly (cmd : CmdWord) (data : Word) : ∃ c, EndsIn (RaisesOnly s c) (serveCommand cmd data s) := by
  cases hd : decode cmd data with
  | badCmd why =>
    rw [serveCommand_of_badCmd hd, badCommand_of_ready hf]
    exact ⟨.badCmd, endsIn_next (.of_raise (by decide))⟩
  | command i =>
    rw [serveCommand_of_command hd]
    exact ⟨faultOf s i, exec_raisesOnly hf i⟩

end

/-- Settles O15: each command passes or fails the checks that the table names for it, in the table's order. -/
theorem faultTableIsExact : Obligations.FaultTableIsExact := fun i _ hf => exec_raisesOnly hf i

/-- Settles O16: whatever fault the word raises, it is a cause of the table, and raising it is all that happens. -/
theorem faultsArePrecise : Obligations.FaultsArePrecise := by
  intro cmd data s t hf h ht
  obtain ⟨c, hends⟩ := serveCommand_raisesOnly hf cmd data
  exact (hends.of_eq_next h).precise ht

/-! ## The fault gate -/

theorem exec_of_isQuery {i : Instr} (hi : isQuery i = true) (s : State) : ∃ x, exec i s = .next (s.respond .ok x) := by
  cases i with
  | stat | wpos | plen | rpos | ulenr => exact ⟨_, rfl⟩
  | pnew | prst | add | adds | uinit | read | reads | brd | bwr => nomatch hi

/-- R174: of the three answers only REJECTED is left to a word that is no query's while FAULT = 1. -/
theorem serveCommand_rejects {cmd : CmdWord} {data : Word} {s : State} (hf : s.fault = true)
    (hq : isQueryWord (decode cmd data) = false) : serveCommand cmd data s = .next (s.respond .rejected 0) := by
  obtain ⟨t, ht, hans⟩ := serveCommand_answers cmd data s
  cases hans with
  | rejected => exact ht
  | faulted hready => simp [hf] at hready
  | ok t hrun => simp [hrun hf] at hq

/-- Settles O18: the gate of R174 line by line, for queries, for other words, and for the block without a fault. -/
theorem faultGateAdmitsOnlyQueries : Obligations.FaultGateAdmitsOnlyQueries := by
  intro cmd data s
  refine ⟨fun hf => ⟨fun i hd hi => ⟨serveCommand_of_command hd s, exec_of_isQuery hi s⟩, fun hq => ?_⟩,
    fun hf => ⟨fun i hd => serveCommand_of_command hd s, fun why hd => ?_⟩⟩
  · exact serveCommand_rejects hf ((isQueryWord_eq_false_iff _).2 hq)
  · exact (serveCommand_of_badCmd hd s).trans (badCommand_of_ready hf)

/-! ## A faulted block until reset -/

/-- R172, R174: a command word changes nothing but the answer while FAULT = 1, whether it is a query's or not. -/
theorem serveCommand_of_fault {s : State} (hf : s.fault = true) (cmd : CmdWord) (data : Word) :
    ∃ r x, serveCommand cmd data s = .next (s.respond r x) := by
  cases hq : isQueryWord (decode cmd data) with
  | false => exact ⟨_, _, serveCommand_rejects hf hq⟩
  | true =>
    cases hd : decode cmd data with
    | badCmd why => simp [hd, isQueryWord] at hq
    | command i =>
      obtain ⟨x, hx⟩ := exec_of_isQuery (by simpa [hd, isQueryWord] using hq) s
      exact ⟨_, x, (serveCommand_of_command hd s).trans hx⟩

/-- `t` is `s` but for the answer and for `k` actions of the host that were served (logs 2, 3). -/
def OnlyAnswered (k : Nat) (s t : State) : Prop := t = { s with answer := t.answer, pending := s.pending.drop k }

theorem OnlyAnswered.refl (s : State) : OnlyAnswered 0 s s := rfl

theorem OnlyAnswered.trans {j k : Nat} {s t r : State} (h₁ : OnlyAnswered j s t) (h₂ : OnlyAnswered k t r) :
    OnlyAnswered (j + k) s r := by
  unfold OnlyAnswered at *
  rw [h₂, h₁]
  simp [List.drop_drop]

theorem OnlyAnswered.fault {k : Nat} {s t : State} (h : OnlyAnswered k s t) : t.fault = s.fault :=
  (congrArg State.fault h :)

theorem OnlyAnswered.pending {k : Nat} {s t : State} (h : OnlyAnswered k s t) : t.pending = s.pending.drop k :=
  (congrArg State.pending h :)

/-- R172, R174: one step of a faulted block. With nothing pending there is no action to drop. -/
theorem step_onlyAnswered {s : State} (hf : s.fault = true) (hreset : ∀ a ∈ s.pending.take 1, a ≠ .reset) :
    EndsIn (OnlyAnswered 1 s) (step s) := by
  cases hp : s.pending with
  | nil =>
    rw [step_idle hp]
    refine endsIn_next ?_
    rw [OnlyAnswered, hp, List.drop_nil, ← hp]
  | cons a as =>
    rw [step_action hp]
    cases a with
    | reset => exact absurd rfl (hreset .reset (by simp [hp]))
    | command cmd data =>
      obtain ⟨r, x, e⟩ := serveCommand_of_fault (s := s.setPending as) hf cmd data
      refine ⟨_, e, ?_⟩
      rw [OnlyAnswered, hp]
      rfl

theorem runSteps_succ (k : Nat) {s s' : State} (h : step s = .next s') : runSteps (k + 1) s = runSteps k s' := by
  rw [runSteps, h]

theorem runSteps_onlyAnswered (k : Nat) : ∀ {s : State}, s.fault = true → (∀ a ∈ s.pending.take k, a ≠ .reset) →
    EndsIn (OnlyAnswered k s) (runSteps k s) := by
  induction k with
  | zero => exact fun {s} _ _ => endsIn_next (.refl s)
  | succ k ih =>
    intro s hf hreset
    rw [Nat.add_comm, List.take_add] at hreset
    obtain ⟨s', hs', hfirst⟩ := step_onlyAnswered hf fun a ha => hreset a (List.mem_append_left _ ha)
    rw [runSteps_succ k hs', Nat.add_comm]
    refine (ih (hfirst.fault.trans hf) fun a ha => hreset a (List.mem_append_right _ ?_)).mono fun t => hfirst.trans
    rwa [hfirst.pending] at ha

/-- Settles O17: the gate leaves a faulted block only answers to give, so a step leaves it faulted, and so does a run. -/
theorem faultIsStickyUntilReset : Obligations.FaultIsStickyUntilReset :=
  fun k _ _ hf hreset h => (runSteps_onlyAnswered k hf hreset).of_eq_next h

end Sys2Proof.Machine
end

section
/-! PROOFS. A step is a reset, or nothing when no action is pending (70_reset_and_hazards.md R190, R195; log 2). -/

namespace Sys2Proof.Machine

/-- Settles O7: a pending reset is served like any other action, after the ports have moved on; with none pending a step is idle. -/
theorem stepResetsOrIdles : Obligations.StepResetsOrIdles := by
  refine ⟨fun s rest hp => ?reset, fun s hp => ?idle⟩
  case reset =>
    rw [step_action hp, serve_reset, State.setPending]
  case idle => exact step_idle hp

end Sys2Proof.Machine
end
